-- ==== Sys2Proof/Word.lean ====
section
/-! DEFINITION. The word types of the base45 CORE: every width the spec gives a stored or transferred value
(00_scope.md R7, R9; 30_encoding.md R60). All values are unsigned (R9). -/

namespace Sys2Proof

/-- A data byte or a character code, 8 bits (R6 `BYTE_W`). -/
abbrev Byte := BitVec 8

/-- A token, 9 bits (R7 `TOKEN_W`): bit 8 is `KIND`, bits 7:0 are `DATA` (R60). -/
abbrev Token := BitVec 9

/-- The 16-bit unit of a pair of bytes (R65 (b), R91). -/
abbrev Unit16 := BitVec 16

/-- The register type of `D.acc`, 17 bits (R7 `ACC_W`, R23). -/
abbrev Acc := BitVec 17

/-- One entry of `IDXROM`, 7 bits: bit 6 is `found`, bits 5:0 are `idx` (R43). -/
abbrev IdxEntry := BitVec 7

/-- An index of the alphabet, 0 to 44 (R7 `IDX_W`, R12). The spec asks for this domain (R82, D25). -/
abbrev Index := Fin 45

end Sys2Proof
end

