-- ==== Sys2Proof/Config.lean ====
section
/-! DEFINITION. The fixed constants of 00_scope.md R6 and R7: "not configurable: a model must not take them as
arguments". The OPEN parameters of R8 are read by no rule, so they do not occur. The spec leaves no value free, so
there is no free value here. -/

namespace Sys2Proof.Config

/-- `RADIX` (R6). -/
@[reducible] def radix : Nat := 45

/-- `RADIX2`, the weight of the third symbol (R6). -/
@[reducible] def radix2 : Nat := 2025

/-- `UNIT2_MAX`, the inclusive bound of the triple range check (R6, R116). -/
@[reducible] def unit2Max : Nat := 65535

/-- `UNIT1_MAX`, the inclusive bound of the trailing-pair range check (R6). -/
@[reducible] def unit1Max : Nat := 255

/-- `TRIPLE_MAX`, the largest value three symbols spell (R6). -/
@[reducible] def tripleMax : Nat := 91124

/-- `PAIR_MAX`, the largest value two symbols spell (R6). -/
@[reducible] def pairMax : Nat := 2024

/-- `E_MAX`, the largest third index the encoder produces (R6). -/
@[reducible] def eMax : Nat := 32

/-- `EOQ_DEPTH`, the most tokens one encoder `ACCEPT` produces (R7). -/
@[reducible] def eoqDepth : Nat := 3

/-- `DOQ_DEPTH`, the most tokens one decoder `ACCEPT` produces (R7). -/
@[reducible] def doqDepth : Nat := 2

end Sys2Proof.Config
end

