-- ==== Sys2Proof/Machine/Alphabet.lean ====
section
/-! DEFINITION. The shared constant of the CORE and its two lookups: `SYMROM`, `IDXROM`, `symbolOf`, `indexOf`
(40_alphabet.md R80 to R87; 20_memory.md R42, R43). -/

namespace Sys2Proof.Machine

/-- `SYMROM` (R42): entry `i` is the character code of the symbol with index `i`, the table of R80. -/
def symrom : List Byte :=
  [0x30, 0x31, 0x32, 0x33, 0x34, 0x35, 0x36, 0x37, 0x38, 0x39] ++
  [0x41, 0x42, 0x43, 0x44, 0x45, 0x46, 0x47, 0x48, 0x49, 0x4A, 0x4B, 0x4C, 0x4D] ++
  [0x4E, 0x4F, 0x50, 0x51, 0x52, 0x53, 0x54, 0x55, 0x56, 0x57, 0x58, 0x59, 0x5A] ++
  [0x20, 0x24, 0x25, 0x2A, 0x2B, 0x2D, 0x2E, 0x2F, 0x3A]

/-- `SYMROM` has exactly 45 entries (R42, D25). -/
theorem symrom_length : symrom.length = 45 := rfl

/-- `MemRead(SYMROM, i)` (R10, R81). There is no entry above 44 to read (R82). -/
def symromRead (i : Index) : Byte :=
  symrom.get (Fin.cast symrom_length.symm i)

/-- The found rows of the table of R84: first address, last address, index at the first address. -/
def idxromRows : List (Nat × Nat × Nat) :=
  [(0x20, 0x20, 36), (0x24, 0x25, 37), (0x2A, 0x2B, 39), (0x2D, 0x2F, 41), (0x30, 0x39, 0), (0x3A, 0x3A, 44),
   (0x41, 0x5A, 10)]

/-- `MemRead(IDXROM, a)` (R43, R84): the entry `found, idx`; both are 0 outside the found rows. -/
def idxrom (a : Byte) : IdxEntry :=
  match idxromRows.find? (fun r => decide (r.1 ≤ a.toNat) && decide (a.toNat ≤ r.2.1)) with
  | some r => BitVec.ofNat 7 (64 + (r.2.2 + (a.toNat - r.1)))
  | none => 0

/-- `indexOf` (R83): `found(i)` is `some i`, `notfound` is `none`. The field `idx` is read only where `found` is 1
(U7), and there it is at most 44 (R84). -/
def indexOf (ch : Byte) : Option Index :=
  if (idxrom ch).getLsbD 6 then
    (let idx := (idxrom ch).extractLsb' 0 6
     if h : idx.toNat < 45 then some ⟨idx.toNat, h⟩ else none)
  else none

/-- The linear scan over `SYMROM` that R43 calls an acceptable implementation of `indexOf`. -/
def scanIndexOf (ch : Byte) : Option Index :=
  (List.finRange 45).find? (fun i => symromRead i == ch)

/-- Whether a code is one of the 45 codes of R80. -/
def isSymbolCode (ch : Byte) : Bool :=
  (indexOf ch).isSome

/-- A character code of one of the 45 symbols, with the proof that it is one: what an `ESYM` token carries
(R62, R32 (f)); U12 asks that an output token type hold no other code. -/
structure Symbol where
  code : Byte
  isCode : isSymbolCode code = true
deriving DecidableEq, Repr

/-- Every entry of `SYMROM` is the code of a symbol (R85). -/
theorem symromRead_isSymbolCode : ∀ i : Index, isSymbolCode (symromRead i) = true := by
  decide

/-- `symbolOf` (R81), on its domain 0 to 44 (R82). -/
def symbolOf (i : Index) : Symbol :=
  ⟨symromRead i, symromRead_isSymbolCode i⟩

end Sys2Proof.Machine
end

