-- ==== Sys2Proof/Syntax.lean ====
section
/-! DEFINITION. The instruction type: one constructor per row of opcode_table.json (30_encoding.md R66). The first
four are the instructions, offered by the producer; the other five are the output tokens, each standing for the
`EMIT` step that hands it to the consumer (41_encoder.md R97, 42_decoder.md R119). -/

namespace Sys2Proof

/-- The four ports. The port a token travels on fixes its format (R60). -/
inductive Port where
  | ei
  | eo
  | di
  | dO
deriving DecidableEq, Repr

/-- The rows of the opcode table. `EEND` and `DEND` carry no operand: their `DATA` is ignored (R67 (b)). -/
inductive Instr where
  /-- `EPUSH b` on `EI` (R95). -/
  | epush (b : Byte)
  /-- `EEND` on `EI` (R96). -/
  | eend
  /-- `DPUSH ch` on `DI` (R117). -/
  | dpush (ch : Byte)
  /-- `DEND` on `DI` (R118). -/
  | dend
  /-- `ESYM ch` on `EO` (R62, R97). -/
  | esym (ch : Byte)
  /-- `EDONE` on `EO` (R62, R97). -/
  | edone
  /-- `DBYTE b` on `DO` (R64, R119). -/
  | dbyte (b : Byte)
  /-- `DDONE OK` on `DO` (R64, R119). -/
  | ddoneOk
  /-- `DDONE ERR` on `DO` (R64, R119). -/
  | ddoneErr
deriving DecidableEq, Repr

/-- The port each token travels on (R66). -/
def Instr.port : Instr → Port
  | .epush _ | .eend => .ei
  | .dpush _ | .dend => .di
  | .esym _ | .edone => .eo
  | .dbyte _ | .ddoneOk | .ddoneErr => .dO

/-- The tokens that close a message or a segment, those with `KIND` = 1 (R60). -/
def Instr.closes : Instr → Bool
  | .epush _ | .dpush _ | .esym _ | .dbyte _ => false
  | .eend | .dend | .edone | .ddoneOk | .ddoneErr => true

end Sys2Proof
end

