-- ==== Sys2Proof/WellFormed.lean ====
section
/-! DEFINITION. Which terms of `Instr` are tokens of the spec. The one check: the `DATA` of an `ESYM` is one of the
45 codes (30_encoding.md R62, R67 (c)). Every other operand is a whole byte, "any of 0x00 to 0xFF" (R61, R63, R64). -/

namespace Sys2Proof

/-- A well-formed token (R61 to R64). -/
def Instr.wf : Instr → Bool
  | .esym ch => Machine.isSymbolCode ch
  | .epush _ | .eend | .dpush _ | .dend | .edone | .dbyte _ | .ddoneOk | .ddoneErr => true

end Sys2Proof
end

