-- ==== Sys2Proof/Decode.lean ====
section
/-! DEFINITION. The decoder of tokens, total on every word of every port and rejecting by name, and the encoder
(30_encoding.md R60 to R67). A token is the pair of a port and a word (R60). -/

namespace Sys2Proof

/-- `tok[8]`, the field `KIND` (R60). -/
def tokKind (t : Token) : Bool :=
  t.getLsbD 8

/-- `tok[7:0]`, the field `DATA` (R60, R65 (a), (d)). -/
def tokData (t : Token) : Byte :=
  t.extractLsb' 0 8

/-- The word with the given `KIND` and `DATA` (R60). -/
def mkToken (kind : Bool) (data : Byte) : Token :=
  BitVec.ofBool kind ++ data

/-- Why a word on an output port stands for no token: the hardware never produces it and the spec gives it no
meaning (R67 (c), U12). -/
inductive Reject where
  /-- An `ESYM` word whose `DATA` is none of the 45 codes. -/
  | esymNoSymbol (data : Byte)
  /-- An `EDONE` word with `DATA` other than 0x00. -/
  | edoneData (data : Byte)
  /-- A `DDONE` word with one of bits 7:1 set. -/
  | ddoneData (data : Byte)
deriving DecidableEq, Repr

/-- Format EI (R61): bit 8 alone decides, all 512 words are legal, `DATA` of `EEND` is ignored (R67 (a), (b)). -/
def decodeEI (t : Token) : Instr :=
  if tokKind t then .eend else .epush (tokData t)

/-- Format DI (R63): bit 8 alone decides, all 512 words are legal, `DATA` of `DEND` is ignored (R67 (a), (b)). -/
def decodeDI (t : Token) : Instr :=
  if tokKind t then .dend else .dpush (tokData t)

/-- Format EO (R62, R67 (c)). -/
def decodeEO (t : Token) : Except Reject Instr :=
  if tokKind t then
    (if tokData t = 0x00#8 then .ok .edone else .error (.edoneData (tokData t)))
  else
    (if Machine.isSymbolCode (tokData t) then .ok (.esym (tokData t)) else .error (.esymNoSymbol (tokData t)))

/-- Format DO (R64, R67 (c)): bit 0 of a `DDONE` word is the status `ST`. -/
def decodeDO (t : Token) : Except Reject Instr :=
  if tokKind t then
    (if tokData t = 0x00#8 then .ok .ddoneOk
     else if tokData t = 0x01#8 then .ok .ddoneErr
     else .error (.ddoneData (tokData t)))
  else .ok (.dbyte (tokData t))

/-- The decoder: a port and a word to the token they are, or the name of the reason why they are none. -/
def decode (p : Port) (t : Token) : Except Reject Instr :=
  match p with
  | .ei => .ok (decodeEI t)
  | .di => .ok (decodeDI t)
  | .eo => decodeEO t
  | .dO => decodeDO t

/-- The encoder: the word of a token, from the tables of R61 to R64; END tokens as their canonical word 0x100
(R67 (b), R70). -/
def encode : Instr → Token
  | .epush b => mkToken false b
  | .eend => mkToken true 0x00
  | .dpush ch => mkToken false ch
  | .dend => mkToken true 0x00
  | .esym ch => mkToken false ch
  | .edone => mkToken true 0x00
  | .dbyte b => mkToken false b
  | .ddoneOk => mkToken true 0x00
  | .ddoneErr => mkToken true 0x01

/-- DESIGN CHOICE (log 9): a number names a port and a word. The word is its bits 8:0, as opcode_table.json numbers
them; the table gives no bits to the port, so bits 10:9, above the table's, select it: 0 for EI (a word with no bit
above the table's is an encoder input), 1 for DI, 2 for EO, 3 for DO. -/
def tablePort (w : Nat) : Option Port :=
  match w / 512 with
  | 0 => some .ei
  | 1 => some .di
  | 2 => some .eo
  | 3 => some .dO
  | _ => none

/-- What `decode` reads from a numbered word (log 9). The length `nbits` is the same for every row (R60). -/
def decodeTableWord (_nbits w : Nat) : Option Instr :=
  match tablePort w with
  | some p =>
    match decode p (BitVec.ofNat 9 w) with
    | .ok i => some i
    | .error _ => none
  | none => none

/-- The number that names a port and a word, the inverse of `tablePort` and the word's bits (log 9). -/
def tableWord (p : Port) (t : Token) : Nat :=
  match p with
  | .ei => t.toNat
  | .di => 512 + t.toNat
  | .eo => 1024 + t.toNat
  | .dO => 1536 + t.toNat

end Sys2Proof
end

