-- ==== Sys2Proof/Machine/State.lean ====
section
/-! DEFINITION. The state of the CORE (10_state.md R20: the encoder's three elements, the decoder's four), the level
of the reset pin, and the environment's side of the four ports (R33 (b)). Plain data throughout. -/

namespace Sys2Proof.Machine

/-- A token of the queue `E.oq` (R30, R62): only words the hardware produces can be written down (U12). -/
inductive EOToken where
  | esym (s : Symbol)
  | edone
deriving DecidableEq, Repr

/-- A token of the queue `D.oq` (R30, R64). -/
inductive DOToken where
  | dbyte (b : Byte)
  | ddoneOk
  | ddoneErr
deriving DecidableEq, Repr

/-- The encoder's state (R20, R21, R22, R30). -/
structure Encoder where
  /-- `E.hold`: the first byte of an incomplete pair. -/
  hold : Byte
  /-- `E.have`: whether `E.hold` holds one. -/
  have_ : Bool
  /-- `E.oq`: produced and not yet taken, head first. -/
  oq : List EOToken
deriving DecidableEq, Repr

/-- The decoder's state (R20, R23, R25, R26, R30). -/
structure Decoder where
  /-- `D.acc`: the value spelled by the symbols of the incomplete group. -/
  acc : Acc
  /-- `D.cnt`: how many symbols of the group are folded into `D.acc`; the value 3 cannot be written down (R25, D23). -/
  cnt : Fin 3
  /-- `D.err`: the sticky error flag of the message. -/
  err : Bool
  /-- `D.oq`: produced and not yet taken, head first. -/
  oq : List DOToken
deriving DecidableEq, Repr

/-- What crossed each port since the last reset, oldest word first (R33 (b), R130). -/
structure Trace where
  ei : List Token
  eo : List Token
  di : List Token
  dO : List Token
deriving DecidableEq, Repr

/-- One turn of the environment's schedule (R11): which agent is to move next. `assertReset` is the step `RESET`
with the pin left asserted; `releaseReset` releases the pin (R170). -/
inductive Turn where
  | encAccept
  | encEmit
  | decAccept
  | decEmit
  | assertReset
  | releaseReset
deriving DecidableEq, Repr

/-- The whole state: the CORE (`e`, `d`, the pin level `rst`) and the environment (log 2, log 11). -/
structure State where
  /-- The encoder. -/
  e : Encoder
  /-- The decoder. -/
  d : Decoder
  /-- The level of the pin `rst`: asserted or not (R72, R170). -/
  rst : Bool
  /-- What the producer still has to offer on `EI`, next token first (R44, R176). -/
  ei : List Token
  /-- What the producer still has to offer on `DI`, next token first (R44, R176). -/
  di : List Token
  /-- The turns the environment has yet to take, next first (R11). -/
  sched : List Turn
  /-- What crossed the ports since the last reset. -/
  trace : Trace
  /-- What crossed them before, one trace for each earlier reset, oldest first (R172). -/
  past : List Trace
deriving DecidableEq, Repr

/-- A fault would stop the machine. The spec has none: its one exception, `DecodeError`, is taken and leads to a next
state (R153, R154), and no input word is illegal (R67 (a)). So there is no constructor. -/
inductive Fault where
deriving DecidableEq, Repr

/-- Why an instruction has no meaning. -/
inductive Refusal where
  /-- Raised by an arm of `exec` whose instruction is not modelled; no arm raises it. Safe: the machine stops. -/
  | notModelled (mnemonic : String)
  /-- Raised by `execEsym` for a code that is no alphabet symbol: "this spec gives such a word no meaning"
  (R67 (c), U12 `refuse`; log 8). No decoder answers such a term and no queue can hold it. Safe: the machine stops. -/
  | noMeaning (ch : Byte)
deriving DecidableEq, Repr

/-- The idle state of the encoder, its reset value (R12, R31). -/
def Encoder.idle : Encoder := { hold := 0, have_ := false, oq := [] }

/-- The idle state of the decoder, its reset value (R12, R31). -/
def Decoder.idle : Decoder := { acc := 0, cnt := 0, err := false, oq := [] }

/-- A trace in which nothing has crossed a port. -/
def Trace.empty : Trace := { ei := [], eo := [], di := [], dO := [] }

/-- The machine right after reset (R31): both units idle. The pin is released (log 5) and the environment has nothing
to offer and no turn to take (log 2). -/
def State.reset : State :=
  { e := Encoder.idle, d := Decoder.idle, rst := false, ei := [], di := [], sched := [], trace := Trace.empty,
    past := [] }

end Sys2Proof.Machine
end

