-- ==== Sys2Proof/Machine/Operands.lean ====
section
/-! DEFINITION. Operand assembly and the datapath functions: the unit former, the divider, the group functions of
the encoder and of the decoder (30_encoding.md R65; 41_encoder.md R91 to R94; 42_decoder.md R112 to R114). Sums and
products are exact naturals (00_scope.md R9, 70_reset_and_hazards.md R179). -/

namespace Sys2Proof.Machine

/-- The unit of a pair, `v = b0*256 + b1`: the earlier byte is the high one (R45, R65 (b)). -/
def unitOfPair (b0 b1 : Byte) : Unit16 :=
  BitVec.ofNat 16 (b0.toNat * 256 + b1.toNat)

/-- The three base-45 digits of a unit, least significant first: `c`, `d`, `e` (R91). -/
structure Digits3 where
  c : Index
  d : Index
  e : Index
deriving DecidableEq, Repr

/-- The two base-45 digits of a byte, least significant first: `c`, `d` (R92). -/
structure Digits2 where
  c : Index
  d : Index
deriving DecidableEq, Repr

/-- `div3` (R91): `e = v div 2025`, `rest = v mod 2025`, `d = rest div 45`, `c = rest mod 45`. -/
def div3 (v : Unit16) : Digits3 :=
  { c := ⟨v.toNat % Config.radix2 % Config.radix, by have := v.isLt; simp only [Config.radix, Config.radix2]; omega⟩
    d := ⟨v.toNat % Config.radix2 / Config.radix, by have := v.isLt; simp only [Config.radix, Config.radix2]; omega⟩
    e := ⟨v.toNat / Config.radix2, by have := v.isLt; simp only [Config.radix2]; omega⟩ }

/-- `div2` (R92): `d = b div 45`, `c = b mod 45`. -/
def div2 (b : Byte) : Digits2 :=
  { c := ⟨b.toNat % Config.radix, by have := b.isLt; simp only [Config.radix]; omega⟩
    d := ⟨b.toNat / Config.radix, by have := b.isLt; simp only [Config.radix]; omega⟩ }

/-- `enc_pair` (R93): three symbols, least significant first (R47). -/
def encPair (b0 b1 : Byte) : List Symbol :=
  [symbolOf (div3 (unitOfPair b0 b1)).c, symbolOf (div3 (unitOfPair b0 b1)).d, symbolOf (div3 (unitOfPair b0 b1)).e]

/-- `enc_single` (R94): two symbols, least significant first. -/
def encSingle (b : Byte) : List Symbol :=
  [symbolOf (div2 b).c, symbolOf (div2 b).d]

/-- What the accumulator holds after the second symbol: the first plus 45 times the second (R112). -/
def pairValue (acc : Nat) (i : Index) : Nat :=
  acc + i.val * Config.radix

/-- The value at the third symbol: the first two plus 2025 times the third (R112). -/
def tripleValue (acc : Nat) (i : Index) : Nat :=
  acc + i.val * Config.radix2

/-- `v[15:8]` (R46, R145 (f)). -/
def byteHi (v : Nat) : Byte :=
  BitVec.ofNat 8 (v / 256)

/-- `v[7:0]` (R46, R145 (f)). -/
def byteLo (v : Nat) : Byte :=
  BitVec.ofNat 8 (v % 256)

end Sys2Proof.Machine
end

