-- ==== Sys2Proof/Machine/Flags.lean ====
section
/-! DEFINITION. The one flag of the hardware, `D.err`, and the range validator that decides it (42_decoder.md R115,
R116; 10_state.md R26; 60_exceptions.md R152). -/

namespace Sys2Proof.Machine

/-- The triple range check: `v > 65535`, strict and no parameter (R115, R116). -/
def overTriple (v : Nat) : Bool :=
  decide (Config.unit2Max < v)

/-- The trailing-pair range check: `v > 255` (R115, R114). -/
def overPair (v : Nat) : Bool :=
  decide (Config.unit1Max < v)

/-- The four causes of `DecodeError` (R152): names for the reader, never an output of the hardware (D27). -/
inductive Cause where
  /-- A character that is no symbol, in `DPUSH`. -/
  | sym
  /-- A symbol count of 1 modulo 3, in `DEND`. -/
  | len
  /-- A triple above 65535, in `DPUSH`. -/
  | range3
  /-- A trailing pair above 255, in `DEND`. -/
  | range2
deriving DecidableEq, Repr

/-- `D.err` after `raise DecodeError(cause)` when it was `err` before: set by the causes of `DPUSH` (R153), left
alone by those of `DEND` (R154, R26). -/
def errAfterRaise (cause : Cause) (err : Bool) : Bool :=
  match cause with
  | .sym | .range3 => true
  | .len | .range2 => err

/-- `dec_triple` (R113): the two bytes of a triple, high byte first, or `none` for the error `RANGE3`. -/
def decTriple (c d e : Index) : Option (List Byte) :=
  let v := tripleValue (pairValue c.val d) e
  if overTriple v then none else some [byteHi v, byteLo v]

/-- `dec_pair` (R114): the byte of a trailing pair, or `none` for the error `RANGE2`. -/
def decPair (c d : Index) : Option (List Byte) :=
  let v := pairValue c.val d
  if overPair v then none else some [byteLo v]

end Sys2Proof.Machine
end

