-- ==== Sys2Proof/Machine/Ops.lean ====
section
/-! DEFINITION. The shared operations: the pins, the enabling conditions, `emit`, taking the exception and returning
from it, `RESET`, taking an input token and handing out an output token (30_encoding.md R72, R73; 60_exceptions.md
R153, R154, R159; 70_reset_and_hazards.md R170). -/

namespace Sys2Proof.Machine

/-- What `exec` and `step` answer. -/
abbrev Result := Host.Outcome State Fault Refusal

/-- The token of `Instr` a queue entry of the encoder is. -/
def EOToken.instr : EOToken → Instr
  | .esym s => .esym s.code
  | .edone => .edone

/-- The token of `Instr` a queue entry of the decoder is. -/
def DOToken.instr : DOToken → Instr
  | .dbyte b => .dbyte b
  | .ddoneOk => .ddoneOk
  | .ddoneErr => .ddoneErr

/-- The word a queue entry of the encoder is on `EO` (R62). -/
def EOToken.word (t : EOToken) : Token := encode t.instr

/-- The word a queue entry of the decoder is on `DO` (R64). -/
def DOToken.word (t : DOToken) : Token := encode t.instr

/-- The output pins and the head words they show, each as R72 gives it; `none` where the queue has no head. -/
structure Pins where
  eiReady : Bool
  eoValid : Bool
  eoData : Option Token
  diReady : Bool
  doValid : Bool
  doData : Option Token
  decErr : Bool
deriving DecidableEq, Repr

/-- `ei_ready`: "1 exactly when `rst` is not asserted and `E.oq = []`" (R72). It enables the encoder's `ACCEPT`. -/
def State.eiReady (s : State) : Bool := !s.rst && s.e.oq.isEmpty

/-- `di_ready`, the same for the decoder (R72). It enables the decoder's `ACCEPT`. -/
def State.diReady (s : State) : Bool := !s.rst && s.d.oq.isEmpty

/-- `eo_valid`: the queue is not empty (R72), and 0 while `rst` is asserted (R170; log 14). It enables the
encoder's `EMIT`. -/
def State.eoValid (s : State) : Bool := !s.rst && !s.e.oq.isEmpty

/-- `do_valid`, the same for the decoder (R72, R170; log 14). It enables the decoder's `EMIT`. -/
def State.doValid (s : State) : Bool := !s.rst && !s.d.oq.isEmpty

/-- `dec_err`: the level copy of `D.err` (R156). -/
def State.decErr (s : State) : Bool := s.d.err

/-- All output pins (R72). -/
def State.pins (s : State) : Pins :=
  { eiReady := s.eiReady, eoValid := s.eoValid, eoData := s.e.oq.head?.map EOToken.word
    diReady := s.diReady, doValid := s.doValid, doData := s.d.oq.head?.map DOToken.word
    decErr := s.decErr }

/-- `emit` on the encoder: append to the tail of `E.oq`, in the order written (R10). -/
def Encoder.emit (u : Encoder) (toks : List EOToken) : Encoder :=
  { u with oq := u.oq ++ toks }

/-- `emit` on the decoder: append to the tail of `D.oq`, in the order written (R10). -/
def Decoder.emit (u : Decoder) (toks : List DOToken) : Decoder :=
  { u with oq := u.oq ++ toks }

/-- Back to the start of a group: the clearing writes of `EPUSH` and `EEND` (R95, R96). -/
def Encoder.clearGroup (u : Encoder) : Encoder :=
  { u with hold := 0, have_ := false }

/-- Back to the start of a group: the clearing writes to `D.acc` and `D.cnt` (R117, R118, R153). -/
def Decoder.clearGroup (u : Decoder) : Decoder :=
  { u with acc := 0, cnt := 0 }

/-- `raise DecodeError(cause)`, the one exception (R150). Inside `DPUSH` it sets `D.err`, clears the group and emits
nothing (R153). Inside `DEND` it emits `DDONE ERR` and nothing else (R154). Nothing is saved: there is no pc, no
status, no vector (R153). -/
def Decoder.raise (cause : Cause) (u : Decoder) : Decoder :=
  match cause with
  | .sym | .range3 => { u.clearGroup with err := errAfterRaise cause u.err }
  | .len | .range2 => { u.emit [.ddoneErr] with err := errAfterRaise cause u.err }

/-- The return from the exception and the end of every message: the three clearing writes at the bottom of `DEND`
(R118, R159). -/
def Decoder.endMessage (u : Decoder) : Decoder :=
  { u.clearGroup with err := false }

/-- `RESET` (R170): both units idle and the pin asserted. The open trace is closed, since the numbering of segments
restarts (R172; log 11). What the producer still has to offer stays with it (R178). -/
def State.resetStep (s : State) : State :=
  { s with e := Encoder.idle, d := Decoder.idle, rst := true, trace := Trace.empty, past := s.past ++ [s.trace] }

/-- The release of the pin `rst` (R173). -/
def State.releaseStep (s : State) : State :=
  { s with rst := false }

/-- The producer's side of an encoder `ACCEPT`: the token leaves the producer and has crossed `EI` (R44). -/
def State.takeEI (s : State) (w : Token) (rest : List Token) : State :=
  { s with ei := rest, trace := { s.trace with ei := s.trace.ei ++ [w] } }

/-- The producer's side of a decoder `ACCEPT` (R44). -/
def State.takeDI (s : State) (w : Token) (rest : List Token) : State :=
  { s with di := rest, trace := { s.trace with di := s.trace.di ++ [w] } }

/-- `E.EMIT` with the queue `t :: rest`: `E.oq` loses its head, which has crossed `EO` (R97). -/
def State.handOutEO (s : State) (t : EOToken) (rest : List EOToken) : State :=
  { s with e := { s.e with oq := rest }, trace := { s.trace with eo := s.trace.eo ++ [t.word] } }

/-- `D.EMIT` with the queue `t :: rest` (R119). -/
def State.handOutDO (s : State) (t : DOToken) (rest : List DOToken) : State :=
  { s with d := { s.d with oq := rest }, trace := { s.trace with dO := s.trace.dO ++ [t.word] } }

/-- An encoder `ACCEPT` with the effect `f` on the encoder: enabled only when `ei_ready` is 1 (R73, R30). A step that
is not enabled does not happen and nothing changes (R178, R176; log 3). -/
def acceptE (f : Encoder → Encoder) (s : State) : State :=
  if s.eiReady then { s with e := f s.e } else s

/-- A decoder `ACCEPT` with the effect `f` on the decoder, enabled only when `di_ready` is 1 (R73, R30; log 3). -/
def acceptD (f : Decoder → Decoder) (s : State) : State :=
  if s.diReady then { s with d := f s.d } else s

/-- `E.EMIT` of the token whose place in `Instr` is `i`: it happens when `eo_valid` is 1 and `i` is the head of
`E.oq`; otherwise this is not the step that is enabled and nothing changes (R97; log 3, log 7). -/
def emitE (i : Instr) (s : State) : State :=
  match s.e.oq with
  | [] => s
  | t :: rest => if s.eoValid && decide (t.instr = i) then s.handOutEO t rest else s

/-- `D.EMIT` of the token whose place in `Instr` is `i` (R119; log 3, log 7). -/
def emitD (i : Instr) (s : State) : State :=
  match s.d.oq with
  | [] => s
  | t :: rest => if s.doValid && decide (t.instr = i) then s.handOutDO t rest else s

end Sys2Proof.Machine
end

