-- ==== Sys2Proof/Machine/DecoderUnit.lean ====
section
/-! DEFINITION. The meanings of the decoder's two instructions, `DPUSH` and `DEND` (42_decoder.md R117, R118). -/

namespace Sys2Proof.Machine

/-- The third symbol of a triple (R117): the range check comes first; an accepted value leaves as two bytes, high
byte first, and the group is cleared. -/
def Decoder.complete (v : Nat) (u : Decoder) : Decoder :=
  if overTriple v then u.raise .range3
  else (u.emit [.dbyte (byteHi v), .dbyte (byteLo v)]).clearGroup

/-- A symbol that was found, folded into the group (R117, R112). -/
def Decoder.fold (i : Index) (u : Decoder) : Decoder :=
  if u.cnt = 0 then { u with acc := BitVec.ofNat 17 i.val, cnt := 1 }
  else if u.cnt = 1 then { u with acc := BitVec.ofNat 17 (pairValue u.acc.toNat i), cnt := 2 }
  else u.complete (tripleValue u.acc.toNat i)

/-- The effect of `DPUSH ch` on the decoder's state (R117): discarded while `D.err` is 1, else looked up, else
folded. -/
def Decoder.push (ch : Byte) (u : Decoder) : Decoder :=
  if u.err then u
  else
    match indexOf ch with
    | none => u.raise .sym
    | some i => u.fold i

/-- What `DEND` emits before its clearing writes (R118). -/
def Decoder.close (u : Decoder) : Decoder :=
  if u.err then u.emit [.ddoneErr]
  else if u.cnt = 0 then u.emit [.ddoneOk]
  else if u.cnt = 1 then u.raise .len
  else if overPair u.acc.toNat then u.raise .range2
  else u.emit [.dbyte (byteLo u.acc.toNat), .ddoneOk]

/-- The effect of `DEND` on the decoder's state (R118): the three clearing writes happen in every case. -/
def Decoder.finish (u : Decoder) : Decoder :=
  u.close.endMessage

/-- `DPUSH ch` (R117). -/
def execDpush (ch : Byte) (s : State) : Result :=
  .next (acceptD (Decoder.push ch) s)

/-- `DEND` (R118). -/
def execDend (s : State) : Result :=
  .next (acceptD Decoder.finish s)

end Sys2Proof.Machine
end

