-- ==== Sys2Proof/Machine/EncoderUnit.lean ====
section
/-! DEFINITION. The meanings of the encoder's two instructions, `EPUSH` and `EEND` (41_encoder.md R95, R96). -/

namespace Sys2Proof.Machine

/-- The effect of `EPUSH b` on the encoder's state (R95): hold the first byte of a pair, or emit the three symbols
of the pair and clear the group. Every right-hand side reads the state before the step (R10). -/
def Encoder.push (b : Byte) (u : Encoder) : Encoder :=
  if u.have_ then (u.emit ((encPair u.hold b).map EOToken.esym)).clearGroup
  else { u with hold := b, have_ := true }

/-- The effect of `EEND` on the encoder's state (R96): the two symbols of a held byte, if any, then `EDONE`. -/
def Encoder.finish (u : Encoder) : Encoder :=
  (u.emit ((if u.have_ then (encSingle u.hold).map EOToken.esym else []) ++ [EOToken.edone])).clearGroup

/-- `EPUSH b` (R95). -/
def execEpush (b : Byte) (s : State) : Result :=
  .next (acceptE (Encoder.push b) s)

/-- `EEND` (R96). -/
def execEend (s : State) : Result :=
  .next (acceptE Encoder.finish s)

end Sys2Proof.Machine
end

