-- ==== Sys2Proof/Machine/Output.lean ====
section
/-! DEFINITION. The meanings of the five output tokens: each is the `EMIT` step that hands this token, the head of
its unit's queue, to the consumer (41_encoder.md R97, 42_decoder.md R119; log 7). -/

namespace Sys2Proof.Machine

/-- `ESYM ch` (R97). A code that is no symbol is refused by name: "this spec gives such a word no meaning"
(R67 (c); log 8). -/
def execEsym (ch : Byte) (s : State) : Result :=
  if isSymbolCode ch then .next (emitE (.esym ch) s) else .refused (.noMeaning ch)

/-- `EDONE` (R97). -/
def execEdone (s : State) : Result :=
  .next (emitE .edone s)

/-- `DBYTE b` (R119). -/
def execDbyte (b : Byte) (s : State) : Result :=
  .next (emitD (.dbyte b) s)

/-- `DDONE OK` (R119). -/
def execDdoneOk (s : State) : Result :=
  .next (emitD .ddoneOk s)

/-- `DDONE ERR` (R119). -/
def execDdoneErr (s : State) : Result :=
  .next (emitD .ddoneErr s)

end Sys2Proof.Machine
end

