-- ==== Sys2Proof/Machine/Dispatch.lean ====
section
/-! DEFINITION. The dispatch: one arm per constructor of `Instr`, each one call of its meaning. -/

namespace Sys2Proof.Machine

/-- The meaning of an instruction in a state. -/
def exec (i : Instr) (s : State) : Host.Outcome State Fault Refusal :=
  match i with
  | .epush b => Sys2Proof.Machine.execEpush b s
  | .eend => Sys2Proof.Machine.execEend s
  | .dpush ch => Sys2Proof.Machine.execDpush ch s
  | .dend => Sys2Proof.Machine.execDend s
  | .esym ch => Sys2Proof.Machine.execEsym ch s
  | .edone => Sys2Proof.Machine.execEdone s
  | .dbyte b => Sys2Proof.Machine.execDbyte b s
  | .ddoneOk => Sys2Proof.Machine.execDdoneOk s
  | .ddoneErr => Sys2Proof.Machine.execDdoneErr s

end Sys2Proof.Machine
end

