-- ==== Sys2Proof/Machine/Fetch.lean ====
section
/-! DEFINITION. Where the next instruction comes from. There is no program counter and no fetch from a memory
(10_state.md R24): an input instruction is the token offered on a port, an output token is the head of a queue, and
the environment's schedule says whose turn it is (00_scope.md R11). -/

namespace Sys2Proof.Machine

/-- The instruction a turn runs and the state it runs in, or `none` when the turn's step is not enabled: no token
offered, `ready` or `valid` at 0 (R73, R170). A turn of the reset pin runs no instruction. -/
def fetch (t : Turn) (s : State) : Option (Instr × State) :=
  match t with
  | .encAccept =>
    match s.ei with
    | [] => none
    | w :: rest => if s.eiReady then some (decodeEI w, s.takeEI w rest) else none
  | .decAccept =>
    match s.di with
    | [] => none
    | w :: rest => if s.diReady then some (decodeDI w, s.takeDI w rest) else none
  | .encEmit =>
    match s.e.oq with
    | [] => none
    | h :: _ => if s.eoValid then some (h.instr, s) else none
  | .decEmit =>
    match s.d.oq with
    | [] => none
    | h :: _ => if s.doValid then some (h.instr, s) else none
  | .assertReset => none
  | .releaseReset => none

/-- One turn (R11): the reset pin's turns act on the pin, with `RESET` before everything else (R170); every other
turn runs the instruction it fetches, and changes nothing when its step is not enabled (log 3). -/
def runTurn (t : Turn) (s : State) : Result :=
  match t with
  | .assertReset => .next s.resetStep
  | .releaseReset => .next s.releaseStep
  | .encAccept | .encEmit | .decAccept | .decEmit =>
    match fetch t s with
    | none => .next s
    | some (i, s') => exec i s'

/-- Put a queue entry at the consumer's side of `EO`, where an `encEmit` turn finds it. -/
def queueOfEO (i : Instr) : Option (List EOToken) :=
  match i with
  | .esym ch => if h : isSymbolCode ch = true then some [.esym ⟨ch, h⟩] else none
  | .edone => some [.edone]
  | .epush _ | .eend | .dpush _ | .dend | .dbyte _ | .ddoneOk | .ddoneErr => none

/-- Put a queue entry at the consumer's side of `DO`, where a `decEmit` turn finds it. -/
def queueOfDO (i : Instr) : Option (List DOToken) :=
  match i with
  | .dbyte b => some [.dbyte b]
  | .ddoneOk => some [.ddoneOk]
  | .ddoneErr => some [.ddoneErr]
  | .epush _ | .eend | .dpush _ | .dend | .esym _ | .edone => none

/-- The state in which the very next turn runs the token `t` of port `p` (log 9): an input token stands first at the
producer with its unit's queue empty; an output token stands in its unit's queue; the pin is released; the port's
turn comes first. A word that is no token of the port changes nothing. -/
def placeToken (s : State) (p : Port) (t : Token) : State :=
  match p with
  | .ei => { s with rst := false, e := { s.e with oq := [] }, ei := t :: s.ei, sched := .encAccept :: s.sched }
  | .di => { s with rst := false, d := { s.d with oq := [] }, di := t :: s.di, sched := .decAccept :: s.sched }
  | .eo =>
    match decodeEO t with
    | .error _ => s
    | .ok i =>
      match queueOfEO i with
      | none => s
      | some q => { s with rst := false, e := { s.e with oq := q }, sched := .encEmit :: s.sched }
  | .dO =>
    match decodeDO t with
    | .error _ => s
    | .ok i =>
      match queueOfDO i with
      | none => s
      | some q => { s with rst := false, d := { s.d with oq := q }, sched := .decEmit :: s.sched }

end Sys2Proof.Machine
end

