-- ==== Sys2Proof/Machine/Step.lean ====
section
/-! DEFINITION. One step of the whole machine, and the placing of a numbered word where the next step runs it. -/

namespace Sys2Proof.Machine

/-- One step: the next turn of the schedule is taken from it and run (00_scope.md R11). With no turn left nobody
moves and nothing changes (60_exceptions.md R167; log 4). -/
def step (s : State) : Host.Outcome State Fault Refusal :=
  match s.sched with
  | [] => .next s
  | t :: rest => runTurn t { s with sched := rest }

/-- `s` with the instruction numbered `w` (as `decodeTableWord` numbers it) placed where the very next step runs it
(log 9). -/
def State.withFetchWord (s : State) (_nbits w : Nat) : State :=
  match tablePort w with
  | some p => placeToken s p (BitVec.ofNat 9 w)
  | none => s

end Sys2Proof.Machine
end

