-- ==== Sys2Proof/Machine/Message.lean ====
section
/-! DEFINITION. Whole messages: the pseudo-instructions, the functions `encode` and `decode` of the source document,
the cutting of a stream into messages and the observation (30_encoding.md R71; 41_encoder.md R100; 42_decoder.md
R121; 43_message_properties.md R130). -/

namespace Sys2Proof.Machine

/-- The pseudo-instruction `ENCODE bytes` (R71): one `EPUSH` a byte, then `EEND`. -/
def encodeTokens (bytes : List Byte) : List Token :=
  bytes.map (fun b => encode (.epush b)) ++ [encode .eend]

/-- The pseudo-instruction `DECODE text` (R71): one `DPUSH` a character, then `DEND`. -/
def decodeTokens (text : List Byte) : List Token :=
  text.map (fun ch => encode (.dpush ch)) ++ [encode .dend]

/-- `encode(bytes)` as a sequence of symbols, by the recursion of R100. -/
def encodeSymbols : List Byte → List Symbol
  | [] => []
  | [b] => encSingle b
  | b0 :: b1 :: rest => encPair b0 b1 ++ encodeSymbols rest

/-- The symbols of the complete pairs of an open message: a last odd byte is still held (R95, R174). -/
def encodePairs : List Byte → List Symbol
  | [] => []
  | [_] => []
  | b0 :: b1 :: rest => encPair b0 b1 ++ encodePairs rest

/-- `encode(bytes)` (R100): the character codes of the text. -/
def encodeText (bytes : List Byte) : List Byte :=
  (encodeSymbols bytes).map Symbol.code

/-- Steps 3 and 4 of `decode` (R121) on the indices: triples in order, then the trailing pair. A single index is
left only when step 2 has already failed. -/
def decodeGroups : List Index → Option (List Byte)
  | [] => some []
  | [_] => none
  | [c, d] => decPair c d
  | c :: d :: e :: rest =>
    match decTriple c d e with
    | none => none
    | some bytes => (decodeGroups rest).map (fun more => bytes ++ more)

/-- `indexOf` on every character (step 1 of R121): `none` when any character is not found. -/
def indicesOf : List Byte → Option (List Index)
  | [] => some []
  | ch :: rest =>
    match indexOf ch with
    | none => none
    | some i => (indicesOf rest).map (fun more => i :: more)

/-- `decode(text)` (R121) in the document's order: all characters, then the length, then the groups. `some` is
`Ok(bytes)`; `none` is `Err`, "one value with nothing inside it". -/
def decodeText (text : List Byte) : Option (List Byte) :=
  match indicesOf text with
  | none => none
  | some x => if x.length % 3 = 1 then none else decodeGroups x

/-- What the hardware has sent out for the text of an open message, and the indices of its incomplete group; `none`
after the first character that is not found or triple out of range (R122, R123). -/
def decodeScan : List Byte → List Byte × Option (List Index)
  | [] => ([], some [])
  | [a] =>
    match indexOf a with
    | some c => ([], some [c])
    | none => ([], none)
  | [a, b] =>
    match indexOf a, indexOf b with
    | some c, some d => ([], some [c, d])
    | _, _ => ([], none)
  | a :: b :: ch :: rest =>
    match indexOf a, indexOf b, indexOf ch with
    | some c, some d, some e =>
      match decTriple c d e with
      | some bytes => (bytes ++ (decodeScan rest).1, (decodeScan rest).2)
      | none => ([], none)
    | _, _, _ => ([], none)

/-- What `DEND` adds to a scan, and the status: `true` is OK (R118). -/
def closeScan (sent : List Byte) : Option (List Index) → List Byte × Bool
  | none => (sent, false)
  | some [] => (sent, true)
  | some [_] => (sent, false)
  | some (c :: d :: _) =>
    match decPair c d with
    | some bytes => (sent ++ bytes, true)
    | none => (sent, false)

/-- The bytes that a closed message has sent out, and its status: `true` is OK (R118, R122). -/
def decodeAnswer (text : List Byte) : List Byte × Bool :=
  closeScan (decodeScan text).1 (decodeScan text).2

/-- A stream cut at its tokens with `KIND` = 1 (R130): the closed runs, each with the token that closes it, and the
data of the run still open. -/
structure Cut where
  closed : List (List Byte × Token)
  open_ : List Byte
deriving DecidableEq, Repr

/-- One more token of the stream. -/
def Cut.push (c : Cut) (t : Token) : Cut :=
  if tokKind t then { closed := c.closed ++ [(c.open_, t)], open_ := [] }
  else { c with open_ := c.open_ ++ [tokData t] }

/-- The cutting of a whole stream (R130). -/
def cut (ts : List Token) : Cut :=
  ts.foldl Cut.push { closed := [], open_ := [] }

/-- The messages of an input stream: the data of its closed runs (R130, R12). -/
def messages (ts : List Token) : List (List Byte) :=
  (cut ts).closed.map Prod.fst

/-- The data of the message that is still open. -/
def openMessage (ts : List Token) : List Byte :=
  (cut ts).open_

/-- The results an observer reads on `EO`: the data of each segment (R130). -/
def encoderResults (eo : List Token) : List (List Byte) :=
  (cut eo).closed.map Prod.fst

/-- The results an observer reads on `DO`: `Ok` of the data when the segment ends in `DDONE OK`, `Err` when it ends in
`DDONE ERR` (R130, R64: bit 0 of the closing token is the status). -/
def decoderResults (dO : List Token) : List (Option (List Byte)) :=
  (cut dO).closed.map (fun r => if (tokData r.2).getLsbD 0 then none else some r.1)

/-- The words on `EO` that answer a closed encoder message (R96, R101). -/
def encoderAnswer (bytes : List Byte) : List Token :=
  (encodeText bytes).map (fun ch => encode (.esym ch)) ++ [encode .edone]

/-- The words on `DO` that answer a closed decoder message (R118, R122). -/
def decoderAnswer (text : List Byte) : List Token :=
  (decodeAnswer text).1.map (fun b => encode (.dbyte b)) ++
    [if (decodeAnswer text).2 then encode .ddoneOk else encode .ddoneErr]

end Sys2Proof.Machine
end

