-- ==== Sys2Proof/Safety.lean ====
section
/-! DEFINITION. The terms claims are stated in: the invariant of reachable states (10_state.md R32), what the streams
of a run say (41_encoder.md R101, 42_decoder.md R122), the end of a run (70_reset_and_hazards.md R182) and schedules
that finish a message (R177). -/

namespace Sys2Proof.Machine

/-- R32 (a), (e) and (f) for the encoder; (f) holds by the type of an `ESYM`. The shapes are those of R30. -/
def Encoder.Inv (u : Encoder) : Prop :=
  (u.have_ = false → u.hold = 0) ∧
  (u.oq = [] ∨ (∃ a b c, u.oq = [.esym a, .esym b, .esym c]) ∨ (∃ a b, u.oq = [.esym a, .esym b]) ∨
    (∃ a, u.oq = [.esym a]) ∨ (∃ a b, u.oq = [.esym a, .esym b, .edone]) ∨ (∃ a, u.oq = [.esym a, .edone]) ∨
    u.oq = [.edone])

/-- A `DDONE` token of either status (R30 writes `DDONE` for both). -/
def DOToken.isDone : DOToken → Bool
  | .dbyte _ => false
  | .ddoneOk | .ddoneErr => true

/-- R32 (c), (d) and (e) for the decoder; (b) holds by the type of `D.cnt`. The shapes are those of R30. -/
def Decoder.Inv (u : Decoder) : Prop :=
  (u.cnt = 0 → u.acc = 0) ∧ (u.cnt = 1 → u.acc.toNat ≤ 44) ∧ (u.cnt = 2 → u.acc.toNat ≤ 2024) ∧
  (u.err = true → u.cnt = 0 ∧ u.acc = 0) ∧
  (u.oq = [] ∨ (∃ a b, u.oq = [.dbyte a, .dbyte b]) ∨ (∃ a, u.oq = [.dbyte a]) ∨
    (∃ a t, u.oq = [.dbyte a, t] ∧ t.isDone = true) ∨ (∃ t, u.oq = [t] ∧ t.isDone = true))

/-- The invariant of reachable states: R32 of both units, and the units held idle while `rst` is asserted (R72,
R170). -/
def State.Inv (s : State) : Prop :=
  s.e.Inv ∧ s.d.Inv ∧ (s.rst = true → s.e = Encoder.idle ∧ s.d = Decoder.idle)

/-- What the encoder's streams say at every moment (R54 (a), (b), R101): the words that have left, then those in the
queue, are the answers to the closed messages in order and the symbols of the complete pairs of the open one; and the
registers hold the odd byte of the open message, if there is one (R22). -/
def State.EncoderTracks (s : State) : Prop :=
  s.trace.eo ++ s.e.oq.map EOToken.word =
    (messages s.trace.ei).flatMap encoderAnswer ++
      (encodePairs (openMessage s.trace.ei)).map (fun y => encode (.esym y.code)) ∧
  s.e.have_ = decide ((openMessage s.trace.ei).length % 2 = 1) ∧
  s.e.hold = (if (openMessage s.trace.ei).length % 2 = 1 then (openMessage s.trace.ei).getLastD 0 else 0)

/-- The value the indices of an incomplete group spell (R23, R112). -/
def groupValue : List Index → Nat
  | [] => 0
  | [c] => c.val
  | c :: d :: _ => pairValue c.val d

/-- What the decoder's streams say at every moment (R54 (a), (b), R122): the answers to the closed messages in order,
then the bytes of the good triples of the open one; and the registers hold its incomplete group, or the error
flag. -/
def State.DecoderTracks (s : State) : Prop :=
  s.trace.dO ++ s.d.oq.map DOToken.word =
    (messages s.trace.di).flatMap decoderAnswer ++
      (decodeScan (openMessage s.trace.di)).1.map (fun b => encode (.dbyte b)) ∧
  match (decodeScan (openMessage s.trace.di)).2 with
  | none => s.d.err = true ∧ s.d.cnt = 0 ∧ s.d.acc = 0
  | some g => s.d.err = false ∧ s.d.cnt.val = g.length ∧ s.d.acc = BitVec.ofNat 17 (groupValue g)

/-- A machine right after reset whose environment has `ei` and `di` to offer and takes the turns `sched`: the
beginning of every run (R171, R101, R122). -/
def State.start (ei di : List Token) (sched : List Turn) : State :=
  { State.reset with ei := ei, di := di, sched := sched }

/-- The end of a run (R182): every token accepted, the last one accepted on each used port an END, both queues
empty. DESIGN CHOICE (log 15): R182 and D26 say nothing about a run cut by reset; here it is judged by what has
happened since the last reset alone, so a message cut by `RESET` does not keep a run from being over. -/
def State.RunOver (s : State) : Prop :=
  s.ei = [] ∧ s.di = [] ∧ openMessage s.trace.ei = [] ∧ openMessage s.trace.di = [] ∧ s.e.oq = [] ∧ s.d.oq = []

/-- Everything the producer offered on `EI` since the machine was built and still offers, oldest first (R44,
R176). -/
def State.allEI (s : State) : List Token :=
  s.past.flatMap Trace.ei ++ s.trace.ei ++ s.ei

/-- The same for `DI`. -/
def State.allDI (s : State) : List Token :=
  s.past.flatMap Trace.di ++ s.trace.di ++ s.di

/-- Two states that agree on everything the encoder and its ports are (R139). -/
def State.sameEncoderSide (s t : State) : Prop :=
  s.e = t.e ∧ s.rst = t.rst ∧ s.ei = t.ei ∧ s.trace.ei = t.trace.ei ∧ s.trace.eo = t.trace.eo

/-- Two states that agree on everything the decoder and its ports are (R139). -/
def State.sameDecoderSide (s t : State) : Prop :=
  s.d = t.d ∧ s.rst = t.rst ∧ s.di = t.di ∧ s.trace.di = t.trace.di ∧ s.trace.dO = t.trace.dO

/-- The turns that finish an encoder message of the given bytes with no turn to spare: each token's `ACCEPT` and then
an `EMIT` for each output token it causes (R177). -/
def encoderTurns : List Byte → List Turn
  | [] => [.encAccept, .encEmit]
  | [_] => [.encAccept, .encAccept, .encEmit, .encEmit, .encEmit]
  | _ :: _ :: rest => [.encAccept, .encAccept, .encEmit, .encEmit, .encEmit] ++ encoderTurns rest

/-- A schedule for a decoder message of `m` characters: after each token's `ACCEPT` two `EMIT` turns, the most it can
need (R177, R7 `DOQ_DEPTH`). A turn whose step is not enabled changes nothing. -/
def decoderTurns (m : Nat) : List Turn :=
  (List.replicate (m + 1) [Turn.decAccept, .decEmit, .decEmit]).flatten

end Sys2Proof.Machine
end

