-- ==== Sys2Proof/Certificates/Slice0/Obligations.lean ====
section
/-! DEFINITION. The statements for the provers. Each docstring names the rule of spec/ it formalises. No statement
is proved here. -/

open Sys2Proof Sys2Proof.Machine

/-! ## Tokens and their words -/

/-- R60 to R64: the decoder of tokens reads back what the encoder writes, for every well-formed token, on the token's
own port. -/
def Obligations.DecodeReadsBackEveryEncodedToken : Prop :=
  ∀ i : Instr, i.wf = true → decode i.port (encode i) = .ok i

/-- R60 to R64, R67: a word that is decoded as some token is that token's own word, but for an END on an input port,
where only bit 8 counts and the canonical word is 0x100; and the token is well formed and of that port. -/
def Obligations.EncodeWritesBackEveryDecodedWord : Prop :=
  ∀ (p : Port) (t : Token) (i : Instr), decode p t = .ok i →
    i.wf = true ∧ i.port = p ∧
      (if (p = .ei ∨ p = .di) ∧ t.getLsbD 8 = true then encode i = 0x100#9 else encode i = t)

/-- R67 (a), (b), R61, R63: on the input ports every word is a token, and bit 8 alone says which. -/
def Obligations.EveryInputWordIsAnInstruction : Prop :=
  ∀ t : Token,
    (t.getLsbD 8 = true → decode .ei t = .ok .eend ∧ decode .di t = .ok .dend) ∧
    (t.getLsbD 8 = false →
      decode .ei t = .ok (.epush (t.extractLsb' 0 8)) ∧ decode .di t = .ok (.dpush (t.extractLsb' 0 8)))

/-- R67 (c), R62, R64: the words an output port never carries are exactly those the decoder rejects: on `EO` a data
word whose code is no symbol and every END word but 0x100; on `DO` every END word but 0x100 and 0x101. The spec gives
them no meaning; that the decoder rejects them is the model's reading (log 8). -/
def Obligations.OutputPortsRejectWordsWithoutMeaning : Prop :=
  ∀ t : Token,
    ((∃ r, decode .eo t = .error r) ↔
      (t.getLsbD 8 = true ∧ t ≠ 0x100#9) ∨ (t.getLsbD 8 = false ∧ ∀ i : Index, (symbolOf i).code ≠ t.extractLsb' 0 8)) ∧
    ((∃ r, decode .dO t = .error r) ↔ t.getLsbD 8 = true ∧ t ≠ 0x100#9 ∧ t ≠ 0x101#9)

/-- R61 to R64, words written out bit by bit: one of each row of the opcode table. -/
def Obligations.WrittenOutWordsDecode : Prop :=
  decode .ei 0b001000001#9 = .ok (.epush 0x41) ∧ decode .ei 0b100000000#9 = .ok .eend ∧
  decode .di 0b000111010#9 = .ok (.dpush 0x3A) ∧ decode .di 0b100000000#9 = .ok .dend ∧
  decode .eo 0b000100000#9 = .ok (.esym 0x20) ∧ decode .eo 0b100000000#9 = .ok .edone ∧
  decode .dO 0b011111111#9 = .ok (.dbyte 0xFF) ∧ decode .dO 0b100000000#9 = .ok .ddoneOk ∧
  decode .dO 0b100000001#9 = .ok .ddoneErr

/-! ## The alphabet -/

/-- R80, the closed form: digits, then capital letters, then the nine other characters in their order. -/
def Obligations.AlphabetIsTheClosedForm : Prop :=
  ∀ i : Index,
    (i.val ≤ 9 → (symbolOf i).code.toNat = 0x30 + i.val) ∧
    (10 ≤ i.val → i.val ≤ 35 → (symbolOf i).code.toNat = 0x41 + (i.val - 10)) ∧
    (36 ≤ i.val → [0x20#8, 0x24#8, 0x25#8, 0x2A#8, 0x2B#8, 0x2D#8, 0x2E#8, 0x2F#8, 0x3A#8][i.val - 36]? =
      some (symbolOf i).code)

/-- R85: the two lookups are inverse on their domains. -/
def Obligations.LookupsAreInverse : Prop :=
  (∀ i : Index, indexOf (symbolOf i).code = some i) ∧
  (∀ (ch : Byte) (i : Index), indexOf ch = some i → (symbolOf i).code = ch)

/-- R43: the inverse table and the linear scan over `SYMROM` agree on all 256 inputs, and an entry that is not found
is 0 throughout. -/
def Obligations.InverseTableAgreesWithScan : Prop :=
  ∀ ch : Byte, indexOf ch = scanIndexOf ch ∧ (indexOf ch = none → idxrom ch = 0#7)

/-! ## The datapath -/

/-- R91: the digits of `div3` spell the unit, the third is at most 32, and no other triple of digits with the first
two below 45 spells it. -/
def Obligations.DivThreeGivesTheOnlyDigits : Prop :=
  ∀ v : Unit16,
    v.toNat = (div3 v).c.val + (div3 v).d.val * 45 + (div3 v).e.val * 2025 ∧ (div3 v).e.val ≤ 32 ∧
    (∀ c d e : Nat, c ≤ 44 → d ≤ 44 → v.toNat = c + d * 45 + e * 2025 →
      c = (div3 v).c.val ∧ d = (div3 v).d.val ∧ e = (div3 v).e.val)

/-- R92: the digits of `div2` spell the byte, the second is at most 5, and they are the first two digits of `div3`,
whose third is 0 there. -/
def Obligations.DivTwoIsDivThreeOnBytes : Prop :=
  ∀ b : Byte,
    b.toNat = (div2 b).c.val + (div2 b).d.val * 45 ∧ (div2 b).d.val ≤ 5 ∧
    (div3 (b.setWidth 16)).c = (div2 b).c ∧ (div3 (b.setWidth 16)).d = (div2 b).d ∧
    (div3 (b.setWidth 16)).e.val = 0

/-- R115: on 17 bits the triple check is bit 16; on a pair's value it is one of bits 10:8. -/
def Obligations.RangeValidatorReadsTheHighBits : Prop :=
  (∀ v : Acc, overTriple v.toNat = v.getLsbD 16) ∧
  (∀ v : BitVec 11, v.toNat ≤ 2024 → overPair v.toNat = (v.getLsbD 10 || v.getLsbD 9 || v.getLsbD 8))

/-- R126: which groups the decoder accepts, and that on them it is the inverse of the encoder's divider. -/
def Obligations.AcceptedGroupsAreTheEncodersGroups : Prop :=
  (∀ c d e : Index, (decTriple c d e).isSome = true ↔
    (e.val ≤ 31 ∨ (e.val = 32 ∧ c.val + d.val * 45 ≤ 735))) ∧
  (∀ c d : Index, (decPair c d).isSome = true ↔ (d.val ≤ 4 ∨ (d.val = 5 ∧ c.val ≤ 30))) ∧
  (∀ (b0 b1 : Byte) (c d e : Index),
    decTriple c d e = some [b0, b1] ↔ div3 (unitOfPair b0 b1) = { c := c, d := d, e := e }) ∧
  (∀ (b : Byte) (c d : Index), decPair c d = some [b] ↔ div2 b = { c := c, d := d })

/-! ## Reset -/

/-- R31: the values of the seven elements after reset, and `dec_err` reads 0. -/
def Obligations.ResetStateIsIdle : Prop :=
  State.reset.e.hold = 0#8 ∧ State.reset.e.have_ = false ∧ State.reset.e.oq = [] ∧
  State.reset.d.acc = 0#17 ∧ State.reset.d.cnt = 0 ∧ State.reset.d.err = false ∧ State.reset.d.oq = [] ∧
  State.reset.pins.decErr = false

/-- R170: `RESET` puts every element of both units at its reset value, whatever the state; until the pin is released
no turn of a unit does anything, the ready and valid pins are 0 and `dec_err` is 0; what the producer has to offer
stays with it. That a turn whose step is not enabled takes only the turn is the model's reading (log 3); the last
clause, what the release does, is the model's choice of how the pin is driven (log 5). -/
def Obligations.ResetClearsBothUnitsAndHoldsThem : Prop :=
  ∀ (s : State) (t : Turn) (rest : List Turn), s.sched = t :: rest →
    (t = .assertReset → ∃ s', step s = .next s' ∧
      s'.e.hold = 0#8 ∧ s'.e.have_ = false ∧ s'.e.oq = [] ∧
      s'.d.acc = 0#17 ∧ s'.d.cnt = 0 ∧ s'.d.err = false ∧ s'.d.oq = [] ∧
      s'.rst = true ∧ s'.ei = s.ei ∧ s'.di = s.di ∧ s'.sched = rest ∧
      s'.pins = { eiReady := false, eoValid := false, eoData := none
                  diReady := false, doValid := false, doData := none, decErr := false }) ∧
    (s.rst = true → t = .encAccept ∨ t = .encEmit ∨ t = .decAccept ∨ t = .decEmit →
      step s = .next { s with sched := rest }) ∧
    (t = .releaseReset → step s = .next { s with sched := rest, rst := false })

/-- R72, R156, R170: in a state with the invariant the output pins are what R72 says: a unit is ready exactly when the
pin `rst` is released and its queue is empty, its output is valid exactly when its queue is not empty, what it shows is
the word of the queue's head, and `dec_err` is `D.err`; under reset they all read 0 and nothing is shown. That R72 and
R170 agree on the valid pins is the model's reading (log 14). -/
def Obligations.PinsFollowTheQueues : Prop :=
  ∀ s : State, s.Inv →
    (s.pins.eiReady = true ↔ s.rst = false ∧ s.e.oq = []) ∧ (s.pins.eoValid = true ↔ s.e.oq ≠ []) ∧
    (s.pins.diReady = true ↔ s.rst = false ∧ s.d.oq = []) ∧ (s.pins.doValid = true ↔ s.d.oq ≠ []) ∧
    (∀ (h : EOToken) (rest : List EOToken), s.e.oq = h :: rest → s.pins.eoData = some h.word) ∧
    (∀ (h : DOToken) (rest : List DOToken), s.d.oq = h :: rest → s.pins.doData = some h.word) ∧
    s.pins.decErr = s.d.err ∧
    (s.rst = true → s.pins = { eiReady := false, eoValid := false, eoData := none
                               diReady := false, doValid := false, doData := none, decErr := false })

/-! ## The instructions -/

/-- R95: `EPUSH b` when it is enabled: it holds the first byte of a pair with no output, and on the second byte it
emits the three symbols of the unit `hold*256 + b`, least significant first, and clears the group. Everything else is
unchanged. -/
def Obligations.EpushHoldsAByteOrEmitsAPair : Prop :=
  ∀ (b : Byte) (s : State), s.rst = false → s.e.oq = [] →
    (s.e.have_ = false →
      exec (.epush b) s = .next { s with e := { hold := b, have_ := true, oq := [] } }) ∧
    (s.e.have_ = true → ∃ c d e : Index,
      s.e.hold.toNat * 256 + b.toNat = c.val + d.val * 45 + e.val * 2025 ∧
      exec (.epush b) s = .next { s with e := { hold := 0, have_ := false, oq :=
         [.esym (symbolOf c), .esym (symbolOf d), .esym (symbolOf e)] } })

/-- R96: `EEND` when it is enabled: the two symbols of a held byte, if there is one, then `EDONE`; the group is
cleared. Everything else is unchanged. -/
def Obligations.EendEmitsTheRemainderAndDone : Prop :=
  ∀ s : State, s.rst = false → s.e.oq = [] →
    (s.e.have_ = false →
      exec .eend s = .next { s with e := { hold := 0, have_ := false, oq := [.edone] } }) ∧
    (s.e.have_ = true → ∃ c d : Index, s.e.hold.toNat = c.val + d.val * 45 ∧
      exec .eend s = .next { s with e := { hold := 0, have_ := false, oq :=
         [.esym (symbolOf c), .esym (symbolOf d), .edone] } })

/-- R117, R112, R153: `DPUSH ch` when it is enabled. Discarded while `D.err` is 1; the exception for a character that
is not found; else the symbol is accumulated with weight 1, 45 or 2025, and the third one emits the two bytes of the
exact sum, high byte first, or raises the exception when the sum is above 65535. The bound on `D.acc` is R32 (c).
Everything else is unchanged. -/
def Obligations.DpushAccumulatesEmitsOrRaises : Prop :=
  ∀ (ch : Byte) (s : State), s.rst = false → s.d.oq = [] →
    (s.d.err = true → exec (.dpush ch) s = .next s) ∧
    (s.d.err = false → indexOf ch = none →
      exec (.dpush ch) s = .next { s with d := { acc := 0, cnt := 0, err := true, oq := [] } }) ∧
    (s.d.err = false → ∀ i : Index, indexOf ch = some i →
      (s.d.cnt = 0 → ∃ a : Acc, a.toNat = i.val ∧
        exec (.dpush ch) s = .next { s with d := { acc := a, cnt := 1, err := false, oq := [] } }) ∧
      (s.d.cnt = 1 → s.d.acc.toNat ≤ 44 → ∃ a : Acc, a.toNat = s.d.acc.toNat + i.val * 45 ∧
        exec (.dpush ch) s = .next { s with d := { acc := a, cnt := 2, err := false, oq := [] } }) ∧
      (s.d.cnt = 2 → s.d.acc.toNat + i.val * 2025 ≤ 65535 → ∃ hi lo : Byte,
        s.d.acc.toNat + i.val * 2025 = hi.toNat * 256 + lo.toNat ∧
        exec (.dpush ch) s =
          .next { s with d := { acc := 0, cnt := 0, err := false, oq := [.dbyte hi, .dbyte lo] } }) ∧
      (s.d.cnt = 2 → 65535 < s.d.acc.toNat + i.val * 2025 →
        exec (.dpush ch) s = .next { s with d := { acc := 0, cnt := 0, err := true, oq := [] } }))

/-- R118, R154, R159: `DEND` when it is enabled. It closes the message with `DDONE OK` or `DDONE ERR` in the five
cases of the rule, after the remainder byte when the trailing pair is in range, and clears the group and `D.err` in
every case. Everything else is unchanged. -/
def Obligations.DendClosesTheMessage : Prop :=
  ∀ s : State, s.rst = false → s.d.oq = [] →
    (s.d.err = true →
      exec .dend s = .next { s with d := { acc := 0, cnt := 0, err := false, oq := [.ddoneErr] } }) ∧
    (s.d.err = false → s.d.cnt = 0 →
      exec .dend s = .next { s with d := { acc := 0, cnt := 0, err := false, oq := [.ddoneOk] } }) ∧
    (s.d.err = false → s.d.cnt = 1 →
      exec .dend s = .next { s with d := { acc := 0, cnt := 0, err := false, oq := [.ddoneErr] } }) ∧
    (s.d.err = false → s.d.cnt = 2 → s.d.acc.toNat ≤ 255 → ∃ b : Byte, b.toNat = s.d.acc.toNat ∧
      exec .dend s = .next { s with d := { acc := 0, cnt := 0, err := false, oq := [.dbyte b, .ddoneOk] } }) ∧
    (s.d.err = false → s.d.cnt = 2 → 255 < s.d.acc.toNat →
      exec .dend s = .next { s with d := { acc := 0, cnt := 0, err := false, oq := [.ddoneErr] } })

/-- R97: `E.EMIT` hands out the head of `E.oq`: the token leaves the queue, its word is appended to `EO`, and nothing
else changes. -/
def Obligations.EncoderEmitHandsOutTheHead : Prop :=
  ∀ (s : State) (rest : List EOToken), s.rst = false →
    (∀ y : Symbol, s.e.oq = .esym y :: rest →
      exec (.esym y.code) s = .next { s with
        e := { s.e with oq := rest }
        trace := { s.trace with eo := s.trace.eo ++ [0#1 ++ y.code] } }) ∧
    (s.e.oq = .edone :: rest →
      exec .edone s = .next { s with
        e := { s.e with oq := rest }
        trace := { s.trace with eo := s.trace.eo ++ [0x100#9] } })

/-- R119: `D.EMIT` hands out the head of `D.oq`: the token leaves the queue, its word is appended to `DO`, and nothing
else changes. -/
def Obligations.DecoderEmitHandsOutTheHead : Prop :=
  ∀ (s : State) (rest : List DOToken), s.rst = false →
    (∀ b : Byte, s.d.oq = .dbyte b :: rest →
      exec (.dbyte b) s = .next { s with
        d := { s.d with oq := rest }
        trace := { s.trace with dO := s.trace.dO ++ [0#1 ++ b] } }) ∧
    (s.d.oq = .ddoneOk :: rest →
      exec .ddoneOk s = .next { s with
        d := { s.d with oq := rest }
        trace := { s.trace with dO := s.trace.dO ++ [0x100#9] } }) ∧
    (s.d.oq = .ddoneErr :: rest →
      exec .ddoneErr s = .next { s with
        d := { s.d with oq := rest }
        trace := { s.trace with dO := s.trace.dO ++ [0x101#9] } })

/-- R30, R176, R178 with the model's reading of a step that is not enabled (log 3, log 7): an input instruction with
output still queued or under reset, and an output token that is not at the head of its queue or under reset, changes
nothing. -/
def Obligations.StepsThatAreNotEnabledChangeNothing : Prop :=
  ∀ s : State,
    (s.rst = true ∨ s.e.oq ≠ [] → ∀ b : Byte, exec (.epush b) s = .next s ∧ exec .eend s = .next s) ∧
    (s.rst = true ∨ s.d.oq ≠ [] → ∀ ch : Byte, exec (.dpush ch) s = .next s ∧ exec .dend s = .next s) ∧
    (∀ y : Symbol, s.rst = true ∨ s.e.oq.head? ≠ some (.esym y) → exec (.esym y.code) s = .next s) ∧
    (s.rst = true ∨ s.e.oq.head? ≠ some .edone → exec .edone s = .next s) ∧
    (∀ b : Byte, s.rst = true ∨ s.d.oq.head? ≠ some (.dbyte b) → exec (.dbyte b) s = .next s) ∧
    (s.rst = true ∨ s.d.oq.head? ≠ some .ddoneOk → exec .ddoneOk s = .next s) ∧
    (s.rst = true ∨ s.d.oq.head? ≠ some .ddoneErr → exec .ddoneErr s = .next s)

/-- The model's reading, over every state: R67 (c) gives an `ESYM` whose code is none of the 45 no meaning, and that
`exec` then stops, by that name and in every state, is log 8; that a term whose step is not enabled or which is not at
the head of its queue still answers a next state is log 3 and log 7. R103 and R153 say that no enabled step of the
spec's own tokens stops. -/
def Obligations.OnlyAForeignEsymStops : Prop :=
  ∀ (i : Instr) (s : State),
    (∀ ch : Byte, i = .esym ch → (∀ k : Index, (symbolOf k).code ≠ ch) → exec i s = .refused (.noMeaning ch)) ∧
    ((∀ ch : Byte, i = .esym ch → ∃ k : Index, (symbolOf k).code = ch) → ∃ s', exec i s = .next s')

/-- R95, R96, R117, R118, the frame over every state and operand: an encoder instruction touches nothing but the
encoder, a decoder instruction nothing but the decoder; neither touches the reset pin, what is still offered, the
schedule or any stream. -/
def Obligations.InputInstructionsTouchOnlyTheirUnit : Prop :=
  ∀ (i : Instr) (s s' : State), exec i s = .next s' →
    (i.port = .ei → s' = { s with e := s'.e }) ∧ (i.port = .di → s' = { s with d := s'.d })

/-- R97, R119, the frame over every state and operand: an output token changes its unit's queue and its port's stream
and nothing else; the registers of both units stay. -/
def Obligations.OutputTokensTouchOnlyQueueAndStream : Prop :=
  ∀ (i : Instr) (s s' : State), exec i s = .next s' →
    (i.port = .eo →
      s' = { s with e := { s.e with oq := s'.e.oq }, trace := { s.trace with eo := s'.trace.eo } }) ∧
    (i.port = .dO →
      s' = { s with d := { s.d with oq := s'.d.oq }, trace := { s.trace with dO := s'.trace.dO } })

/-! ## The step -/

/-- R73, R11: an `ACCEPT` turn that is enabled runs the instruction that the word offered on its port decodes to, in
the state from which the turn and the word have been taken and the word has crossed the port. -/
def Obligations.StepRunsTheDecodedInputToken : Prop :=
  ∀ (s : State) (turns : List Turn) (w : Token) (rest : List Token) (i : Instr), s.rst = false →
    (s.sched = .encAccept :: turns → s.ei = w :: rest → s.e.oq = [] → decode .ei w = .ok i →
      step s = exec i { s with
        sched := turns
        ei := rest
        trace := { s.trace with ei := s.trace.ei ++ [w] } }) ∧
    (s.sched = .decAccept :: turns → s.di = w :: rest → s.d.oq = [] → decode .di w = .ok i →
      step s = exec i { s with
        sched := turns
        di := rest
        trace := { s.trace with di := s.trace.di ++ [w] } })

/-- R73, R97, R119: an `EMIT` turn that is enabled runs the output token that the word of the queue's head decodes
to, in the state from which the turn has been taken. -/
def Obligations.StepRunsTheQueuedOutputToken : Prop :=
  ∀ (s : State) (turns : List Turn) (i : Instr), s.rst = false →
    (∀ (h : EOToken) (rest : List EOToken), s.sched = .encEmit :: turns → s.e.oq = h :: rest →
      decode .eo h.word = .ok i → step s = exec i { s with sched := turns }) ∧
    (∀ (h : DOToken) (rest : List DOToken), s.sched = .decEmit :: turns → s.d.oq = h :: rest →
      decode .dO h.word = .ok i → step s = exec i { s with sched := turns })

/-- R73, R176, R167 with the model's reading of a turn that is not enabled and of a schedule that has run out (log 3,
log 4): only the turn is taken; a token not accepted stays with the producer, a token not emitted in the queue. -/
def Obligations.IdleTurnsChangeOnlyTheSchedule : Prop :=
  ∀ (s : State) (turns : List Turn),
    (s.sched = [] → step s = .next s) ∧
    (s.sched = .encAccept :: turns → s.ei = [] ∨ s.e.oq ≠ [] → step s = .next { s with sched := turns }) ∧
    (s.sched = .decAccept :: turns → s.di = [] ∨ s.d.oq ≠ [] → step s = .next { s with sched := turns }) ∧
    (s.sched = .encEmit :: turns → s.e.oq = [] → step s = .next { s with sched := turns }) ∧
    (s.sched = .decEmit :: turns → s.d.oq = [] → step s = .next { s with sched := turns })

/-- No step of the machine stops, from any state. For an enabled step that is R103, R67 (a) and R153: no word is
illegal and the exception is taken. Where no step is enabled or the schedule has run out the spec has no step at all
(R167; U13, U14), and the next state there is the model's choice (log 3, log 4). -/
def Obligations.EveryStepHasANextState : Prop :=
  ∀ s : State, ∃ s', step s = .next s'

/-! ## Rules about the whole machine -/

/-- R32 at reset: the invariant of reachable states holds in the state right after reset. -/
def Obligations.InvariantHoldsAtReset : Prop :=
  State.reset.Inv

/-- R32, R170: every step from a state with the invariant leads to one with the invariant. -/
def Obligations.EveryStepKeepsTheInvariant : Prop :=
  ∀ s s' : State, s.Inv → step s = .next s' → s'.Inv

/-- R112, R179, R145 (d): in a state with the invariant the sum formed at the third symbol is at most 91124 and is
held by 17 bits without wrapping. -/
def Obligations.AccumulatorNeverWraps : Prop :=
  ∀ (s : State) (i : Index), s.Inv →
    s.d.acc.toNat + i.val * 2025 ≤ 91124 ∧
      (s.d.acc + BitVec.ofNat 17 (i.val * 2025)).toNat = s.d.acc.toNat + i.val * 2025

/-- R26, R153, R156: over any step, `D.err` (the pin `dec_err`) rises only when an accepted `DPUSH` raises, and then
the group is cleared and nothing is queued; it falls only with `RESET` or an accepted `DEND`. -/
def Obligations.ErrorFlagRisesAndFallsByTheRule : Prop :=
  ∀ s s' : State, step s = .next s' →
    (s.pins.decErr = false → s'.pins.decErr = true →
      ∃ (turns : List Turn) (w : Token) (rest : List Token),
        s.sched = .decAccept :: turns ∧ s.di = w :: rest ∧ w.getLsbD 8 = false ∧
        (indexOf (w.extractLsb' 0 8) = none ∨
          (s.d.cnt = 2 ∧ ∃ i : Index, indexOf (w.extractLsb' 0 8) = some i ∧
            65535 < s.d.acc.toNat + i.val * 2025)) ∧
        s'.d.acc = 0 ∧ s'.d.cnt = 0 ∧ s'.d.oq = []) ∧
    (s.pins.decErr = true → s'.pins.decErr = false →
      (∃ turns : List Turn, s.sched = .assertReset :: turns) ∨
      ∃ (turns : List Turn) (w : Token) (rest : List Token),
        s.sched = .decAccept :: turns ∧ s.di = w :: rest ∧ w.getLsbD 8 = true ∧ s'.d.oq = [.ddoneErr])

/-- R54 (a), (b), R30: whatever the step, a unit accepts a token only when its queue is empty and emits one only when
it is not; never more than one token crosses a port in a step. -/
def Obligations.AcceptNeedsAnEmptyQueue : Prop :=
  ∀ s s' : State, step s = .next s' →
    (s'.trace.ei ≠ s.trace.ei → s'.trace = Trace.empty ∨
      (s.e.oq = [] ∧ s'.trace.eo = s.trace.eo ∧ ∃ w, s'.trace.ei = s.trace.ei ++ [w])) ∧
    (s'.trace.eo ≠ s.trace.eo → s'.trace = Trace.empty ∨
      (∃ h rest, s.e.oq = h :: rest ∧ s'.e.oq = rest ∧ s'.trace.eo = s.trace.eo ++ [h.word])) ∧
    (s'.trace.di ≠ s.trace.di → s'.trace = Trace.empty ∨
      (s.d.oq = [] ∧ s'.trace.dO = s.trace.dO ∧ ∃ w, s'.trace.di = s.trace.di ++ [w])) ∧
    (s'.trace.dO ≠ s.trace.dO → s'.trace = Trace.empty ∨
      (∃ h rest, s.d.oq = h :: rest ∧ s'.d.oq = rest ∧ s'.trace.dO = s.trace.dO ++ [h.word]))

/-- R44, R176, R178: no input token is lost, duplicated or reordered by any step: what has been accepted since the
machine was built, followed by what is still offered, stays the same sequence, over resets and stalls too. -/
def Obligations.NoInputTokenIsLostOrDuplicated : Prop :=
  ∀ s s' : State, step s = .next s' → s'.allEI = s.allEI ∧ s'.allDI = s.allDI

/-- R130: each accepted END token produces exactly one DONE token and nothing else does: on each unit the count of
END words accepted equals the count of DONE words emitted or queued, and every step keeps that. -/
def Obligations.EveryEndGetsExactlyOneDone : Prop :=
  ∀ s s' : State, step s = .next s' →
    ((s.trace.eo ++ s.e.oq.map EOToken.word).countP tokKind = s.trace.ei.countP tokKind →
      (s'.trace.eo ++ s'.e.oq.map EOToken.word).countP tokKind = s'.trace.ei.countP tokKind) ∧
    ((s.trace.dO ++ s.d.oq.map DOToken.word).countP tokKind = s.trace.di.countP tokKind →
      (s'.trace.dO ++ s'.d.oq.map DOToken.word).countP tokKind = s'.trace.di.countP tokKind)

/-- R139, R54 (c), R11: what the encoder does in a run depends neither on what the decoder is given nor on when the
decoder takes its turns: two runs whose schedules agree once the decoder's turns are taken out end with the same
encoder side. -/
def Obligations.EncoderIsIndependentOfTheDecoder : Prop :=
  ∀ (s t s' t' : State), s.sameEncoderSide t →
    s.sched.filter (fun x => x ≠ .decAccept ∧ x ≠ .decEmit) =
      t.sched.filter (fun x => x ≠ .decAccept ∧ x ≠ .decEmit) →
    Host.Core.run Sys2Proof.core s.sched.length s = .next s' →
    Host.Core.run Sys2Proof.core t.sched.length t = .next t' → s'.sameEncoderSide t'

/-- R139, R54 (c), R11, the other way round. -/
def Obligations.DecoderIsIndependentOfTheEncoder : Prop :=
  ∀ (s t s' t' : State), s.sameDecoderSide t →
    s.sched.filter (fun x => x ≠ .encAccept ∧ x ≠ .encEmit) =
      t.sched.filter (fun x => x ≠ .encAccept ∧ x ≠ .encEmit) →
    Host.Core.run Sys2Proof.core s.sched.length s = .next s' →
    Host.Core.run Sys2Proof.core t.sched.length t = .next t' → s'.sameDecoderSide t'

/-! ## Whole messages: the functions -/

/-- R131: decoding an encoded message gives it back, for every sequence of bytes. -/
def Obligations.DecodeUndoesEncode : Prop :=
  ∀ bytes : List Byte, decodeText (encodeText bytes) = some bytes

/-- R137: every accepted text is the encoding of its bytes. -/
def Obligations.EncodeUndoesDecode : Prop :=
  ∀ (text bytes : List Byte), decodeText text = some bytes → encodeText bytes = text

/-- R102, R132, R125: the two length laws. -/
def Obligations.LengthLaws : Prop :=
  (∀ bytes : List Byte,
    (encodeText bytes).length = 3 * (bytes.length / 2) + (if bytes.length % 2 = 1 then 2 else 0) ∧
    (encodeText bytes).length % 3 ≠ 1) ∧
  (∀ text bytes : List Byte, decodeText text = some bytes →
    bytes.length = 2 * (text.length / 3) + (if text.length % 3 = 2 then 1 else 0)) ∧
  (∀ text : List Byte, (decodeAnswer text).2 = false → (decodeAnswer text).1.length ≤ 2 * (text.length / 3))

/-- R133: every character of an encoded text is one of the 45 symbols and below 0x80. -/
def Obligations.EncodedTextIsFromTheAlphabet : Prop :=
  ∀ (bytes : List Byte) (ch : Byte), ch ∈ encodeText bytes →
    (∃ i : Index, (symbolOf i).code = ch) ∧ ch.toNat < 0x80

/-- R121: `decode` fails exactly when a character is not found, or the length is 1 modulo 3, or a triple is above
65535, or the trailing pair is above 255. -/
def Obligations.DecodeFailsExactlyByTheFourCauses : Prop :=
  ∀ text : List Byte, decodeText text = none ↔
    (∃ ch ∈ text, indexOf ch = none) ∨ text.length % 3 = 1 ∨
    (∃ (k : Nat) (a b ch : Byte) (c d e : Index),
      text[3 * k]? = some a ∧ text[3 * k + 1]? = some b ∧ text[3 * k + 2]? = some ch ∧
      indexOf a = some c ∧ indexOf b = some d ∧ indexOf ch = some e ∧
      65535 < c.val + d.val * 45 + e.val * 2025) ∨
    (∃ (k : Nat) (a b : Byte) (c d : Index), text.length = 3 * k + 2 ∧
      text[3 * k]? = some a ∧ text[3 * k + 1]? = some b ∧
      indexOf a = some c ∧ indexOf b = some d ∧ 255 < c.val + d.val * 45)

/-- R122, R157 (c): testing in stream order gives the result that the document's order of checks gives: the status
the hardware reports and the bytes it has sent are `decode` of the text. -/
def Obligations.StreamOrderDecodesLikeTheDocument : Prop :=
  ∀ text : List Byte,
    decodeText text = (if (decodeAnswer text).2 then some (decodeAnswer text).1 else none)

/-- R123, R153: once a message has failed, no further character changes what it has sent or its failure. -/
def Obligations.AFailedMessageSendsNothingMore : Prop :=
  ∀ text more : List Byte, (decodeScan text).2 = none →
    decodeScan (text ++ more) = decodeScan text ∧ (decodeAnswer (text ++ more)).2 = false

/-- R140: the words that answer an encoder message are the words of `DECODE` of its text, so they can be fed to `DI`
unchanged, and the decoder's answer to them is the message's bytes and `DDONE OK`. The reverse wiring reads `DBYTE` and
`DDONE OK` as `EPUSH` and `EEND`, and `DDONE ERR` as an `EEND` too. -/
def Obligations.LoopBackGivesTheMessageBack : Prop :=
  (∀ bytes : List Byte,
    encoderAnswer bytes = decodeTokens (encodeText bytes) ∧
    decoderAnswer (encodeText bytes) = bytes.map (fun b => encode (.dbyte b)) ++ [0x100#9]) ∧
  (∀ b : Byte, decode .ei (encode (.dbyte b)) = .ok (.epush b)) ∧
  decode .ei (encode .ddoneOk) = .ok .eend ∧ decode .ei (encode .ddoneErr) = .ok .eend

/-! ## Whole messages: the machine -/

/-- R31, R171: the beginning of a run: right after reset, whatever is offered and whatever turns are to come, the
invariant holds and the streams say what the rules say of them. The offers and the turns as fields, and the released
pin, are the model's choice (log 2, log 5). -/
def Obligations.RunsBeginOnTrack : Prop :=
  ∀ (ei di : List Token) (sched : List Turn),
    (State.start ei di sched).Inv ∧ (State.start ei di sched).EncoderTracks ∧
      (State.start ei di sched).DecoderTracks

/-- R54 (a), (b), R22, R101: every step keeps the encoder on track: what it has sent and queued answers what it has
accepted, and its registers hold the odd byte of the open message. -/
def Obligations.EveryStepKeepsTheEncoderOnTrack : Prop :=
  ∀ s s' : State, s.EncoderTracks → step s = .next s' → s'.EncoderTracks

/-- R54 (a), (b), R23, R25, R122: every step keeps the decoder on track: what it has sent and queued answers what it
has accepted, and its registers hold the incomplete group of the open message, or its failure. -/
def Obligations.EveryStepKeepsTheDecoderOnTrack : Prop :=
  ∀ s s' : State, s.DecoderTracks → step s = .next s' → s'.DecoderTracks

/-- R101, R138: for every schedule, every offer on both ports and every number of steps: with the queue drained, the
results read on `EO` since the last reset are `encode` of the messages accepted since then, one each, in order. -/
def Obligations.EncoderResultsAreEncodeOfTheMessages : Prop :=
  ∀ (ei di : List Token) (sched : List Turn) (k : Nat) (s : State),
    Host.Core.run Sys2Proof.core k (State.start ei di sched) = .next s → s.e.oq = [] →
    encoderResults s.trace.eo = (messages s.trace.ei).map encodeText

/-- R122, R138, R124: for every schedule, every offer on both ports and every number of steps: with the queue drained,
the results read on `DO` since the last reset are `decode` of the messages accepted since then, one each, in order,
the failed ones among them `Err` with no bytes. -/
def Obligations.DecoderResultsAreDecodeOfTheMessages : Prop :=
  ∀ (ei di : List Token) (sched : List Turn) (k : Nat) (s : State),
    Host.Core.run Sys2Proof.core k (State.start ei di sched) = .next s → s.d.oq = [] →
    decoderResults s.trace.dO = (messages s.trace.di).map decodeText

/-- R34, R182: at the end of a run both units are idle, whatever the messages were and whether or not they failed.
R182 says nothing about a run cut by reset; that `RunOver` judges such a run by what came after the reset is the
model's choice (log 15). -/
def Obligations.UnitsAreIdleWhenARunIsOver : Prop :=
  ∀ (ei di : List Token) (sched : List Turn) (k : Nat) (s : State),
    Host.Core.run Sys2Proof.core k (State.start ei di sched) = .next s → s.RunOver →
    s.e = Encoder.idle ∧ s.d = Decoder.idle

/-- R101, R177: from any state with the encoder idle, a message of `n` bytes is finished by `n + 1` `ACCEPT` turns and
one `EMIT` turn for each of its output tokens: its words have been accepted, its answer stands on `EO`, the encoder is
idle again and nothing else has changed. -/
def Obligations.EncoderFinishesEveryMessage : Prop :=
  ∀ (bytes : List Byte) (s : State) (rest : List Token) (turns : List Turn),
    s.rst = false → s.e = Encoder.idle → s.ei = encodeTokens bytes ++ rest →
    s.sched = encoderTurns bytes ++ turns →
    (encoderTurns bytes).countP (fun t => t = .encAccept) = bytes.length + 1 ∧
    (encoderTurns bytes).countP (fun t => t = .encEmit) = (encoderAnswer bytes).length ∧
    Host.Core.run Sys2Proof.core (encoderTurns bytes).length s =
      .next { s with
        ei := rest
        sched := turns
        trace := { s.trace with ei := s.trace.ei ++ encodeTokens bytes, eo := s.trace.eo ++ encoderAnswer bytes } }

/-- R122, R177: from any state with the decoder idle, a message of `m` characters is finished by `m + 1` `ACCEPT` turns
with two `EMIT` turns after each: its words have been accepted, its answer stands on `DO`, the decoder is idle again,
whether or not the message failed, and nothing else has changed. `decoderTurns` holds `EMIT` turns whose step is not
enabled; that these take only the turn is the model's reading (log 3). -/
def Obligations.DecoderFinishesEveryMessage : Prop :=
  ∀ (text : List Byte) (s : State) (rest : List Token) (turns : List Turn),
    s.rst = false → s.d = Decoder.idle → s.di = decodeTokens text ++ rest →
    s.sched = decoderTurns text.length ++ turns →
    Host.Core.run Sys2Proof.core (decoderTurns text.length).length s =
      .next { s with
        di := rest
        sched := turns
        trace := { s.trace with di := s.trace.di ++ decodeTokens text, dO := s.trace.dO ++ decoderAnswer text } }

/-- R136: the message `EEND` alone yields `EDONE` alone, the message `DEND` alone yields `DDONE OK` alone: from the
state after reset, two turns of the unit put exactly the word 0x100 on its output port. -/
def Obligations.EmptyMessagesAnswerEmpty : Prop :=
  (∃ s, Host.Core.run Sys2Proof.core 2 (State.start [0x100#9] [] [.encAccept, .encEmit]) = .next s ∧
    s.trace.eo = [0x100#9] ∧ s.e = Encoder.idle) ∧
  (∃ s, Host.Core.run Sys2Proof.core 2 (State.start [] [0x100#9] [.decAccept, .decEmit]) = .next s ∧
    s.trace.dO = [0x100#9] ∧ s.d = Decoder.idle)

/-- R134: a message that holds a character outside the alphabet ends in `DDONE ERR`, wherever it stands and whatever
else the message holds: the word 0x101 is the last of the answer, and the result is `Err`. -/
def Obligations.ForeignCharactersFailTheMessage : Prop :=
  ∀ (before after : List Byte) (ch : Byte), (∀ i : Index, (symbolOf i).code ≠ ch) →
    (decoderAnswer (before ++ ch :: after)).getLast? = some 0x101#9 ∧
    decodeText (before ++ ch :: after) = none

/-- R135: a message of symbols whose count is 1 modulo 3 ends in `DDONE ERR`; when its triples are in range it has sent
the two bytes of each, which are void. -/
def Obligations.LengthOneModThreeFailsTheMessage : Prop :=
  ∀ text : List Byte, (∀ ch ∈ text, ∃ i : Index, (symbolOf i).code = ch) → text.length % 3 = 1 →
    (decoderAnswer text).getLast? = some 0x101#9 ∧ decodeText text = none ∧
    ((decodeScan text).2 ≠ none → (decodeAnswer text).1.length = 2 * (text.length / 3))
end

