-- ==== Sys2Proof/Laws/Config.lean ====
section
/-! SUPPORT. The constants of R6 as numerals, for arithmetic. -/

namespace Sys2Proof.Config

@[simp] theorem radix_eq : radix = 45 := rfl
@[simp] theorem radix2_eq : radix2 = 2025 := rfl
@[simp] theorem unit2Max_eq : unit2Max = 65535 := rfl
@[simp] theorem unit1Max_eq : unit1Max = 255 := rfl
@[simp] theorem tripleMax_eq : tripleMax = 91124 := rfl
@[simp] theorem pairMax_eq : pairMax = 2024 := rfl
@[simp] theorem eMax_eq : eMax = 32 := rfl
@[simp] theorem eoqDepth_eq : eoqDepth = 3 := rfl
@[simp] theorem doqDepth_eq : doqDepth = 2 := rfl

end Sys2Proof.Config
end

