-- ==== Sys2Proof/Laws/Message.lean ====
section
/-! SUPPORT. The cutting of a stream, one token at a time. -/

namespace Sys2Proof.Machine

@[simp] theorem messages_nil : messages [] = [] := rfl
@[simp] theorem openMessage_nil : openMessage [] = [] := rfl

/-- One more token at the end of a stream. -/
theorem cut_append_singleton (ts : List Token) (t : Token) : cut (ts ++ [t]) = (cut ts).push t := by
  simp [cut, List.foldl_append]

/-- A data token goes to the open message and closes none. -/
theorem cut_append_data (ts : List Token) (t : Token) (h : tokKind t = false) :
    messages (ts ++ [t]) = messages ts ∧ openMessage (ts ++ [t]) = openMessage ts ++ [tokData t] := by
  simp [messages, openMessage, cut_append_singleton, Cut.push, h]

/-- An END token closes the open message. -/
theorem cut_append_end (ts : List Token) (t : Token) (h : tokKind t = true) :
    messages (ts ++ [t]) = messages ts ++ [openMessage ts] ∧ openMessage (ts ++ [t]) = [] := by
  simp [messages, openMessage, cut_append_singleton, Cut.push, h]

end Sys2Proof.Machine
end

