-- ==== Sys2Proof/Laws/State.lean ====
section
/-! SUPPORT. One lemma per field per update of the state, each true by `rfl`, so that no proof unfolds a record
update. -/

namespace Sys2Proof.Machine

section EncoderUpdates
variable (u : Encoder) (q : List EOToken)

@[simp] theorem Encoder.idle_hold : Encoder.idle.hold = 0 := rfl
@[simp] theorem Encoder.idle_have : Encoder.idle.have_ = false := rfl
@[simp] theorem Encoder.idle_oq : Encoder.idle.oq = [] := rfl
@[simp] theorem Encoder.emit_hold : (u.emit q).hold = u.hold := rfl
@[simp] theorem Encoder.emit_have : (u.emit q).have_ = u.have_ := rfl
@[simp] theorem Encoder.emit_oq : (u.emit q).oq = u.oq ++ q := rfl
@[simp] theorem Encoder.clearGroup_hold : u.clearGroup.hold = 0 := rfl
@[simp] theorem Encoder.clearGroup_have : u.clearGroup.have_ = false := rfl
@[simp] theorem Encoder.clearGroup_oq : u.clearGroup.oq = u.oq := rfl

end EncoderUpdates

section DecoderUpdates
variable (u : Decoder) (q : List DOToken)

@[simp] theorem Decoder.idle_acc : Decoder.idle.acc = 0 := rfl
@[simp] theorem Decoder.idle_cnt : Decoder.idle.cnt = 0 := rfl
@[simp] theorem Decoder.idle_err : Decoder.idle.err = false := rfl
@[simp] theorem Decoder.idle_oq : Decoder.idle.oq = [] := rfl
@[simp] theorem Decoder.emit_acc : (u.emit q).acc = u.acc := rfl
@[simp] theorem Decoder.emit_cnt : (u.emit q).cnt = u.cnt := rfl
@[simp] theorem Decoder.emit_err : (u.emit q).err = u.err := rfl
@[simp] theorem Decoder.emit_oq : (u.emit q).oq = u.oq ++ q := rfl
@[simp] theorem Decoder.clearGroup_acc : u.clearGroup.acc = 0 := rfl
@[simp] theorem Decoder.clearGroup_cnt : u.clearGroup.cnt = 0 := rfl
@[simp] theorem Decoder.clearGroup_err : u.clearGroup.err = u.err := rfl
@[simp] theorem Decoder.clearGroup_oq : u.clearGroup.oq = u.oq := rfl
@[simp] theorem Decoder.endMessage_acc : u.endMessage.acc = 0 := rfl
@[simp] theorem Decoder.endMessage_cnt : u.endMessage.cnt = 0 := rfl
@[simp] theorem Decoder.endMessage_err : u.endMessage.err = false := rfl
@[simp] theorem Decoder.endMessage_oq : u.endMessage.oq = u.oq := rfl

end DecoderUpdates

section StateUpdates
variable (s : State) (w : Token) (ws : List Token)

@[simp] theorem State.resetStep_e : s.resetStep.e = Encoder.idle := rfl
@[simp] theorem State.resetStep_d : s.resetStep.d = Decoder.idle := rfl
@[simp] theorem State.resetStep_rst : s.resetStep.rst = true := rfl
@[simp] theorem State.resetStep_ei : s.resetStep.ei = s.ei := rfl
@[simp] theorem State.resetStep_di : s.resetStep.di = s.di := rfl
@[simp] theorem State.resetStep_sched : s.resetStep.sched = s.sched := rfl
@[simp] theorem State.resetStep_trace : s.resetStep.trace = Trace.empty := rfl
@[simp] theorem State.resetStep_past : s.resetStep.past = s.past ++ [s.trace] := rfl

@[simp] theorem State.releaseStep_e : s.releaseStep.e = s.e := rfl
@[simp] theorem State.releaseStep_d : s.releaseStep.d = s.d := rfl
@[simp] theorem State.releaseStep_rst : s.releaseStep.rst = false := rfl
@[simp] theorem State.releaseStep_ei : s.releaseStep.ei = s.ei := rfl
@[simp] theorem State.releaseStep_di : s.releaseStep.di = s.di := rfl
@[simp] theorem State.releaseStep_sched : s.releaseStep.sched = s.sched := rfl
@[simp] theorem State.releaseStep_trace : s.releaseStep.trace = s.trace := rfl
@[simp] theorem State.releaseStep_past : s.releaseStep.past = s.past := rfl

@[simp] theorem State.takeEI_e : (s.takeEI w ws).e = s.e := rfl
@[simp] theorem State.takeEI_d : (s.takeEI w ws).d = s.d := rfl
@[simp] theorem State.takeEI_rst : (s.takeEI w ws).rst = s.rst := rfl
@[simp] theorem State.takeEI_ei : (s.takeEI w ws).ei = ws := rfl
@[simp] theorem State.takeEI_di : (s.takeEI w ws).di = s.di := rfl
@[simp] theorem State.takeEI_sched : (s.takeEI w ws).sched = s.sched := rfl
@[simp] theorem State.takeEI_trace : (s.takeEI w ws).trace = { s.trace with ei := s.trace.ei ++ [w] } := rfl
@[simp] theorem State.takeEI_past : (s.takeEI w ws).past = s.past := rfl

@[simp] theorem State.takeDI_e : (s.takeDI w ws).e = s.e := rfl
@[simp] theorem State.takeDI_d : (s.takeDI w ws).d = s.d := rfl
@[simp] theorem State.takeDI_rst : (s.takeDI w ws).rst = s.rst := rfl
@[simp] theorem State.takeDI_ei : (s.takeDI w ws).ei = s.ei := rfl
@[simp] theorem State.takeDI_di : (s.takeDI w ws).di = ws := rfl
@[simp] theorem State.takeDI_sched : (s.takeDI w ws).sched = s.sched := rfl
@[simp] theorem State.takeDI_trace : (s.takeDI w ws).trace = { s.trace with di := s.trace.di ++ [w] } := rfl
@[simp] theorem State.takeDI_past : (s.takeDI w ws).past = s.past := rfl

variable (eo : EOToken) (eos : List EOToken) (dO : DOToken) (dOs : List DOToken)

@[simp] theorem State.handOutEO_e : (s.handOutEO eo eos).e = { s.e with oq := eos } := rfl
@[simp] theorem State.handOutEO_d : (s.handOutEO eo eos).d = s.d := rfl
@[simp] theorem State.handOutEO_rst : (s.handOutEO eo eos).rst = s.rst := rfl
@[simp] theorem State.handOutEO_ei : (s.handOutEO eo eos).ei = s.ei := rfl
@[simp] theorem State.handOutEO_di : (s.handOutEO eo eos).di = s.di := rfl
@[simp] theorem State.handOutEO_sched : (s.handOutEO eo eos).sched = s.sched := rfl
@[simp] theorem State.handOutEO_trace :
    (s.handOutEO eo eos).trace = { s.trace with eo := s.trace.eo ++ [eo.word] } := rfl
@[simp] theorem State.handOutEO_past : (s.handOutEO eo eos).past = s.past := rfl

@[simp] theorem State.handOutDO_e : (s.handOutDO dO dOs).e = s.e := rfl
@[simp] theorem State.handOutDO_d : (s.handOutDO dO dOs).d = { s.d with oq := dOs } := rfl
@[simp] theorem State.handOutDO_rst : (s.handOutDO dO dOs).rst = s.rst := rfl
@[simp] theorem State.handOutDO_ei : (s.handOutDO dO dOs).ei = s.ei := rfl
@[simp] theorem State.handOutDO_di : (s.handOutDO dO dOs).di = s.di := rfl
@[simp] theorem State.handOutDO_sched : (s.handOutDO dO dOs).sched = s.sched := rfl
@[simp] theorem State.handOutDO_trace :
    (s.handOutDO dO dOs).trace = { s.trace with dO := s.trace.dO ++ [dO.word] } := rfl
@[simp] theorem State.handOutDO_past : (s.handOutDO dO dOs).past = s.past := rfl

@[simp] theorem Trace.empty_ei : Trace.empty.ei = [] := rfl
@[simp] theorem Trace.empty_eo : Trace.empty.eo = [] := rfl
@[simp] theorem Trace.empty_di : Trace.empty.di = [] := rfl
@[simp] theorem Trace.empty_dO : Trace.empty.dO = [] := rfl

end StateUpdates

end Sys2Proof.Machine
end

