-- ==== Sys2Proof/Laws/Ops.lean ====
section
/-! SUPPORT. For each shared operation one lemma that says everything it can do. -/

namespace Sys2Proof.Machine

/-- The triple range check rejects exactly the values above 65535 (R115, R116). -/
@[simp] theorem overTriple_eq_true (v : Nat) : overTriple v = true ↔ 65535 < v :=
  decide_eq_true_iff

/-- The trailing-pair range check rejects exactly the values above 255 (R115). -/
@[simp] theorem overPair_eq_true (v : Nat) : overPair v = true ↔ 255 < v :=
  decide_eq_true_iff

/-- The encoder's `ACCEPT` is enabled exactly as R72 says. -/
@[simp] theorem State.eiReady_eq_true (s : State) : s.eiReady = true ↔ s.rst = false ∧ s.e.oq = [] := by
  simp [State.eiReady]

/-- The decoder's `ACCEPT` is enabled exactly as R72 says. -/
@[simp] theorem State.diReady_eq_true (s : State) : s.diReady = true ↔ s.rst = false ∧ s.d.oq = [] := by
  simp [State.diReady]

/-- The encoder's `EMIT` is enabled exactly when the pin is released and the queue is not empty. -/
@[simp] theorem State.eoValid_eq_true (s : State) : s.eoValid = true ↔ s.rst = false ∧ s.e.oq ≠ [] := by
  simp [State.eoValid]

/-- The decoder's `EMIT` is enabled exactly when the pin is released and the queue is not empty. -/
@[simp] theorem State.doValid_eq_true (s : State) : s.doValid = true ↔ s.rst = false ∧ s.d.oq ≠ [] := by
  simp [State.doValid]

/-- An encoder `ACCEPT` that is enabled has its effect. -/
theorem acceptE_ready (f : Encoder → Encoder) {s : State} (hr : s.rst = false) (hq : s.e.oq = []) :
    acceptE f s = { s with e := f s.e } :=
  if_pos ((State.eiReady_eq_true s).2 ⟨hr, hq⟩)

/-- A decoder `ACCEPT` that is enabled has its effect. -/
theorem acceptD_ready (f : Decoder → Decoder) {s : State} (hr : s.rst = false) (hq : s.d.oq = []) :
    acceptD f s = { s with d := f s.d } :=
  if_pos ((State.diReady_eq_true s).2 ⟨hr, hq⟩)

/-- `acceptE` either applies its effect to the encoder, when enabled, or changes nothing. -/
theorem acceptE_cases (f : Encoder → Encoder) (s : State) :
    (s.rst = false ∧ s.e.oq = [] ∧ acceptE f s = { s with e := f s.e }) ∨
      ((s.rst = true ∨ s.e.oq ≠ []) ∧ acceptE f s = s) := by
  unfold acceptE
  by_cases h : s.eiReady = true
  · have h' := (State.eiReady_eq_true s).1 h
    exact .inl ⟨h'.1, h'.2, by rw [if_pos h]⟩
  · refine .inr ⟨?_, by rw [if_neg h]⟩
    rw [State.eiReady_eq_true] at h
    cases hr : s.rst <;> simp_all

/-- `acceptD` either applies its effect to the decoder, when enabled, or changes nothing. -/
theorem acceptD_cases (f : Decoder → Decoder) (s : State) :
    (s.rst = false ∧ s.d.oq = [] ∧ acceptD f s = { s with d := f s.d }) ∨
      ((s.rst = true ∨ s.d.oq ≠ []) ∧ acceptD f s = s) := by
  unfold acceptD
  by_cases h : s.diReady = true
  · have h' := (State.diReady_eq_true s).1 h
    exact .inl ⟨h'.1, h'.2, by rw [if_pos h]⟩
  · refine .inr ⟨?_, by rw [if_neg h]⟩
    rw [State.diReady_eq_true] at h
    cases hr : s.rst <;> simp_all

/-- `emitE` either hands out the head of the queue, when it is the token asked for, or changes nothing. -/
theorem emitE_cases (i : Instr) (s : State) :
    (∃ t rest, s.rst = false ∧ s.e.oq = t :: rest ∧ t.instr = i ∧ emitE i s = s.handOutEO t rest) ∨
      ((s.rst = true ∨ s.e.oq.head?.map EOToken.instr ≠ some i) ∧ emitE i s = s) := by
  unfold emitE
  cases hq : s.e.oq with
  | nil => exact .inr ⟨.inr (by simp), rfl⟩
  | cons t rest =>
    by_cases ht : t.instr = i
    · cases hr : s.rst with
      | false => exact .inl ⟨t, rest, rfl, rfl, ht, by simp [State.eoValid, hr, hq, ht]⟩
      | true => exact .inr ⟨.inl rfl, by simp [State.eoValid, hr]⟩
    · exact .inr ⟨.inr (by simpa using ht), by simp [ht]⟩

/-- `emitD` either hands out the head of the queue, when it is the token asked for, or changes nothing. -/
theorem emitD_cases (i : Instr) (s : State) :
    (∃ t rest, s.rst = false ∧ s.d.oq = t :: rest ∧ t.instr = i ∧ emitD i s = s.handOutDO t rest) ∨
      ((s.rst = true ∨ s.d.oq.head?.map DOToken.instr ≠ some i) ∧ emitD i s = s) := by
  unfold emitD
  cases hq : s.d.oq with
  | nil => exact .inr ⟨.inr (by simp), rfl⟩
  | cons t rest =>
    by_cases ht : t.instr = i
    · cases hr : s.rst with
      | false => exact .inl ⟨t, rest, rfl, rfl, ht, by simp [State.doValid, hr, hq, ht]⟩
      | true => exact .inr ⟨.inl rfl, by simp [State.doValid, hr]⟩
    · exact .inr ⟨.inr (by simpa using ht), by simp [ht]⟩

/-- What a raise does, by its cause (R153, R154). -/
theorem Decoder.raise_cases (cause : Cause) (u : Decoder) :
    ((cause = .sym ∨ cause = .range3) ∧ u.raise cause = { u with acc := 0, cnt := 0, err := true }) ∨
      ((cause = .len ∨ cause = .range2) ∧ u.raise cause = { u with oq := u.oq ++ [.ddoneErr] }) := by
  cases cause
  · exact .inl ⟨.inl rfl, rfl⟩
  · exact .inr ⟨.inl rfl, rfl⟩
  · exact .inl ⟨.inr rfl, rfl⟩
  · exact .inr ⟨.inr rfl, rfl⟩

end Sys2Proof.Machine
end

