-- ==== Sys2Proof/Laws/PerInstr.lean ====
section
/-! SUPPORT. Statements made per instruction. `KindBit`: the word of a token has `KIND` = 1 exactly when the token
closes a message or a segment (30_encoding.md R60), and its `DATA` is what R61 to R64 give its row. -/

namespace Sys2Proof.Laws

/-- The `DATA` field of the canonical word of each row (R61 to R64). -/
def dataOf : Instr → Byte
  | .epush b | .dpush b | .esym b | .dbyte b => b
  | .eend | .dend | .edone | .ddoneOk => 0x00
  | .ddoneErr => 0x01

/-- `KIND` of a word built from its fields. -/
@[simp] theorem tokKind_mkToken : ∀ (k : Bool) (d : Byte), tokKind (mkToken k d) = k := by
  decide

/-- `DATA` of a word built from its fields. -/
@[simp] theorem tokData_mkToken : ∀ (k : Bool) (d : Byte), tokData (mkToken k d) = d := by
  decide

/-- A word is its two fields. -/
theorem mkToken_fields : ∀ t : Token, mkToken (tokKind t) (tokData t) = t := by
  decide

namespace KindBit

/-- Both fields of a token's word (R60). -/
def Statement (i : Instr) : Prop :=
  tokKind (encode i) = i.closes ∧ tokData (encode i) = dataOf i

theorem epush (b : Byte) : Statement (.epush b) := by simp [Statement, encode, Instr.closes, dataOf]
theorem eend : Statement .eend := by simp [Statement, encode, Instr.closes, dataOf]
theorem dpush (ch : Byte) : Statement (.dpush ch) := by simp [Statement, encode, Instr.closes, dataOf]
theorem dend : Statement .dend := by simp [Statement, encode, Instr.closes, dataOf]
theorem esym (ch : Byte) : Statement (.esym ch) := by simp [Statement, encode, Instr.closes, dataOf]
theorem edone : Statement .edone := by simp [Statement, encode, Instr.closes, dataOf]
theorem dbyte (b : Byte) : Statement (.dbyte b) := by simp [Statement, encode, Instr.closes, dataOf]
theorem ddoneOk : Statement .ddoneOk := by simp [Statement, encode, Instr.closes, dataOf]
theorem ddoneErr : Statement .ddoneErr := by simp [Statement, encode, Instr.closes, dataOf]

end KindBit

end Sys2Proof.Laws
end

