-- ==== Sys2Proof/Laws/Step.lean ====
section
/-! SUPPORT. What one step can do, said once: every next state of `step` is one of the cases of `StepCase`, guards
included. -/

namespace Sys2Proof.Machine

/-- The effect of the word `w` on the encoder: its `EEND` or its `EPUSH`. -/
def Encoder.accept (w : Token) (u : Encoder) : Encoder :=
  if tokKind w then u.finish else u.push (tokData w)

/-- The effect of the word `w` on the decoder: its `DEND` or its `DPUSH`. -/
def Decoder.accept (w : Token) (u : Decoder) : Decoder :=
  if tokKind w then u.finish else u.push (tokData w)

/-- The cases of a step from `s`. -/
inductive StepCase (s : State) : State → Prop where
  | noTurn (hs : s.sched = []) : StepCase s s
  | assertReset (turns : List Turn) (hs : s.sched = .assertReset :: turns) :
      StepCase s { s with sched := turns }.resetStep
  | releaseReset (turns : List Turn) (hs : s.sched = .releaseReset :: turns) :
      StepCase s { s with sched := turns }.releaseStep
  | notEnabled (t : Turn) (turns : List Turn) (hs : s.sched = t :: turns) (ht : t ≠ .assertReset)
      (ht' : t ≠ .releaseReset) (hf : fetch t { s with sched := turns } = none) : StepCase s { s with sched := turns }
  | encAccept (turns : List Turn) (w : Token) (rest : List Token) (hs : s.sched = .encAccept :: turns)
      (hi : s.ei = w :: rest) (hr : s.rst = false) (hq : s.e.oq = []) :
      StepCase s { ({ s with sched := turns }.takeEI w rest) with e := s.e.accept w }
  | decAccept (turns : List Turn) (w : Token) (rest : List Token) (hs : s.sched = .decAccept :: turns)
      (hi : s.di = w :: rest) (hr : s.rst = false) (hq : s.d.oq = []) :
      StepCase s { ({ s with sched := turns }.takeDI w rest) with d := s.d.accept w }
  | encEmit (turns : List Turn) (h : EOToken) (rest : List EOToken) (hs : s.sched = .encEmit :: turns)
      (hr : s.rst = false) (hq : s.e.oq = h :: rest) : StepCase s ({ s with sched := turns }.handOutEO h rest)
  | decEmit (turns : List Turn) (h : DOToken) (rest : List DOToken) (hs : s.sched = .decEmit :: turns)
      (hr : s.rst = false) (hq : s.d.oq = h :: rest) : StepCase s ({ s with sched := turns }.handOutDO h rest)

/-- Running the word an encoder `ACCEPT` has taken, when enabled. -/
theorem exec_decodeEI (w : Token) (s : State) (hr : s.rst = false) (hq : s.e.oq = []) :
    exec (decodeEI w) s = .next { s with e := s.e.accept w } := by
  unfold decodeEI Encoder.accept
  split <;> simp [exec, execEpush, execEend, acceptE, State.eiReady, hr, hq]

/-- Running the word a decoder `ACCEPT` has taken, when enabled. -/
theorem exec_decodeDI (w : Token) (s : State) (hr : s.rst = false) (hq : s.d.oq = []) :
    exec (decodeDI w) s = .next { s with d := s.d.accept w } := by
  unfold decodeDI Decoder.accept
  split <;> simp [exec, execDpush, execDend, acceptD, State.diReady, hr, hq]

/-- Running the head of the encoder's queue. -/
theorem exec_eoHead (h : EOToken) (rest : List EOToken) (s : State) (hr : s.rst = false) (hq : s.e.oq = h :: rest) :
    exec h.instr s = .next (s.handOutEO h rest) := by
  cases h with
  | esym y => simp [EOToken.instr, exec, execEsym, y.isCode, emitE, hq, State.eoValid, hr]
  | edone => simp [EOToken.instr, exec, execEdone, emitE, hq, State.eoValid, hr]

/-- Running the head of the decoder's queue. -/
theorem exec_doHead (h : DOToken) (rest : List DOToken) (s : State) (hr : s.rst = false) (hq : s.d.oq = h :: rest) :
    exec h.instr s = .next (s.handOutDO h rest) := by
  cases h <;>
    simp [DOToken.instr, exec, execDbyte, execDdoneOk, execDdoneErr, emitD, hq, State.doValid, hr]

/-- A list is empty or has a head. -/
theorem nil_or_cons {α : Type} (l : List α) : l = [] ∨ ∃ x rest, l = x :: rest := by
  cases l with
  | nil => exact .inl rfl
  | cons x rest => exact .inr ⟨x, rest, rfl⟩

/-- A turn whose step is not enabled changes nothing. -/
theorem runTurn_of_fetch_none {t : Turn} {s : State} (ht : t ≠ .assertReset) (ht' : t ≠ .releaseReset)
    (hf : fetch t s = none) : runTurn t s = .next s := by
  cases t <;> simp_all [runTurn]

/-- A turn whose step is enabled runs what it fetches. -/
theorem runTurn_of_fetch_some {t : Turn} {s s' : State} {i : Instr} (hf : fetch t s = some (i, s')) :
    runTurn t s = exec i s' := by
  cases t <;> simp_all [runTurn, fetch]

/-- What an encoder `ACCEPT` turn fetches. -/
theorem fetch_encAccept (s : State) :
    (∃ w rest, s.ei = w :: rest ∧ s.rst = false ∧ s.e.oq = [] ∧
      fetch .encAccept s = some (decodeEI w, s.takeEI w rest)) ∨ fetch .encAccept s = none := by
  obtain hi | ⟨w, rest, hi⟩ := nil_or_cons s.ei
  · exact .inr (by simp [fetch, hi])
  · by_cases he : s.rst = false ∧ s.e.oq = []
    · exact .inl ⟨w, rest, hi, he.1, he.2, by simp [fetch, hi, he]⟩
    · exact .inr (by simp [fetch, hi, he])

/-- What a decoder `ACCEPT` turn fetches. -/
theorem fetch_decAccept (s : State) :
    (∃ w rest, s.di = w :: rest ∧ s.rst = false ∧ s.d.oq = [] ∧
      fetch .decAccept s = some (decodeDI w, s.takeDI w rest)) ∨ fetch .decAccept s = none := by
  obtain hi | ⟨w, rest, hi⟩ := nil_or_cons s.di
  · exact .inr (by simp [fetch, hi])
  · by_cases he : s.rst = false ∧ s.d.oq = []
    · exact .inl ⟨w, rest, hi, he.1, he.2, by simp [fetch, hi, he]⟩
    · exact .inr (by simp [fetch, hi, he])

/-- What an encoder `EMIT` turn fetches. -/
theorem fetch_encEmit (s : State) :
    (∃ h rest, s.rst = false ∧ s.e.oq = h :: rest ∧ fetch .encEmit s = some (h.instr, s)) ∨
      fetch .encEmit s = none := by
  obtain hq | ⟨h, rest, hq⟩ := nil_or_cons s.e.oq
  · exact .inr (by simp [fetch, hq])
  · by_cases hr : s.rst = false
    · exact .inl ⟨h, rest, hr, hq, by simp [fetch, hq, hr]⟩
    · exact .inr (by simp [fetch, hq, hr])

/-- What a decoder `EMIT` turn fetches. -/
theorem fetch_decEmit (s : State) :
    (∃ h rest, s.rst = false ∧ s.d.oq = h :: rest ∧ fetch .decEmit s = some (h.instr, s)) ∨
      fetch .decEmit s = none := by
  obtain hq | ⟨h, rest, hq⟩ := nil_or_cons s.d.oq
  · exact .inr (by simp [fetch, hq])
  · by_cases hr : s.rst = false
    · exact .inl ⟨h, rest, hr, hq, by simp [fetch, hq, hr]⟩
    · exact .inr (by simp [fetch, hq, hr])

/-- Everything a turn can do. -/
theorem runTurn_cases (s : State) (t : Turn) (turns : List Turn) (hs : s.sched = t :: turns) :
    ∃ s', runTurn t { s with sched := turns } = .next s' ∧ StepCase s s' := by
  have stay : t ≠ .assertReset → t ≠ .releaseReset → fetch t { s with sched := turns } = none →
      ∃ s', runTurn t { s with sched := turns } = .next s' ∧ StepCase s s' := fun ha hb hf =>
    ⟨_, runTurn_of_fetch_none ha hb hf, .notEnabled t turns hs ha hb hf⟩
  cases t with
  | assertReset => exact ⟨_, rfl, .assertReset turns hs⟩
  | releaseReset => exact ⟨_, rfl, .releaseReset turns hs⟩
  | encAccept =>
    obtain ⟨w, rest, hi, hr, hq, hf⟩ | hf := fetch_encAccept { s with sched := turns }
    · exact ⟨_, (runTurn_of_fetch_some hf).trans (exec_decodeEI w _ hr hq), .encAccept turns w rest hs hi hr hq⟩
    · exact stay (by simp) (by simp) hf
  | decAccept =>
    obtain ⟨w, rest, hi, hr, hq, hf⟩ | hf := fetch_decAccept { s with sched := turns }
    · exact ⟨_, (runTurn_of_fetch_some hf).trans (exec_decodeDI w _ hr hq), .decAccept turns w rest hs hi hr hq⟩
    · exact stay (by simp) (by simp) hf
  | encEmit =>
    obtain ⟨h, rest, hr, hq, hf⟩ | hf := fetch_encEmit { s with sched := turns }
    · exact ⟨_, (runTurn_of_fetch_some hf).trans (exec_eoHead h rest _ hr hq), .encEmit turns h rest hs hr hq⟩
    · exact stay (by simp) (by simp) hf
  | decEmit =>
    obtain ⟨h, rest, hr, hq, hf⟩ | hf := fetch_decEmit { s with sched := turns }
    · exact ⟨_, (runTurn_of_fetch_some hf).trans (exec_doHead h rest _ hr hq), .decEmit turns h rest hs hr hq⟩
    · exact stay (by simp) (by simp) hf

/-- A step with no turn left. -/
theorem step_nil {s : State} (hs : s.sched = []) : step s = .next s := by
  simp [step, hs]

/-- A step with a turn left runs it. -/
theorem step_cons {s : State} {t : Turn} {turns : List Turn} (hs : s.sched = t :: turns) :
    step s = runTurn t { s with sched := turns } := by
  simp [step, hs]

/-- Everything a step can do: an invariant is proved by the cases of this. -/
theorem step_cases {s s' : State} (h : step s = .next s') : StepCase s s' := by
  obtain hs | ⟨t, turns, hs⟩ := nil_or_cons s.sched
  · rw [step_nil hs] at h
    obtain rfl : s = s' := by simpa using h
    exact .noTurn hs
  · obtain ⟨s'', h1, h2⟩ := runTurn_cases s t turns hs
    rw [step_cons hs, h1] at h
    obtain rfl : s'' = s' := by simpa using h
    exact h2

end Sys2Proof.Machine
end

