-- ==== Sys2Proof/Laws/Run.lean ====
section
/-! SUPPORT. Runs of the machine: one step of a run, the forward form of each enabled turn, and the induction over a
run packaged once. -/

namespace Sys2Proof.Machine

/-- The next state of the machine: `step` always has one. -/
theorem step_has_next (s : State) : ∃ s', step s = .next s' := by
  obtain hs | ⟨t, turns, hs⟩ := nil_or_cons s.sched
  · exact ⟨s, step_nil hs⟩
  · obtain ⟨s', h, -⟩ := runTurn_cases s t turns hs
    exact ⟨s', (step_cons hs).trans h⟩

/-- No step: the run is where it began. -/
@[simp] theorem run_zero (s : State) : Host.Core.run core 0 s = .next s := rfl

/-- The first step of a run. -/
theorem run_succ (k : Nat) {s s' : State} (h : step s = .next s') :
    Host.Core.run core (k + 1) s = Host.Core.run core k s' := by
  have h' : core.step s = .next s' := h
  simp only [Host.Core.run, h']

/-- A run cut in two. -/
theorem run_add (j k : Nat) {s s' : State} (h : Host.Core.run core j s = .next s') :
    Host.Core.run core (j + k) s = Host.Core.run core k s' := by
  induction j generalizing s with
  | zero =>
    obtain rfl : s = s' := Host.Outcome.next.inj h
    rw [Nat.zero_add]
  | succ j ih =>
    obtain ⟨s1, h1⟩ := step_has_next s
    rw [run_succ j h1] at h
    rw [Nat.add_right_comm, run_succ (j + k) h1]
    exact ih h

/-- An invariant that holds at the beginning of a run and that every step keeps holds at its end. -/
theorem run_induction (P : State → Prop) (hstep : ∀ s s', P s → step s = .next s' → P s') (k : Nat) {s s' : State}
    (h0 : P s) (h : Host.Core.run core k s = .next s') : P s' := by
  induction k generalizing s with
  | zero =>
    obtain rfl : s = s' := Host.Outcome.next.inj h
    exact h0
  | succ k ih =>
    obtain ⟨s1, h1⟩ := step_has_next s
    rw [run_succ k h1] at h
    exact ih (hstep s s1 h0 h1) h

/-- A step takes its turn from the schedule and no other. -/
theorem step_sched {s s' : State} {t : Turn} {turns : List Turn} (hs : s.sched = t :: turns)
    (h : step s = .next s') : s'.sched = turns := by
  cases step_cases h with
  | noTurn ha => rw [hs] at ha; cases ha
  | assertReset _ ha => rw [hs] at ha; cases ha; rfl
  | releaseReset _ ha => rw [hs] at ha; cases ha; rfl
  | notEnabled _ _ ha => rw [hs] at ha; cases ha; rfl
  | encAccept _ _ _ ha => rw [hs] at ha; cases ha; rfl
  | decAccept _ _ _ ha => rw [hs] at ha; cases ha; rfl
  | encEmit _ _ _ ha => rw [hs] at ha; cases ha; rfl
  | decEmit _ _ _ ha => rw [hs] at ha; cases ha; rfl

/-- The run of a whole schedule, its first turn split off. -/
theorem run_sched_cons {s s'' : State} {t : Turn} {turns : List Turn} (hs : s.sched = t :: turns)
    (h : Host.Core.run core s.sched.length s = .next s'') :
    ∃ s', step s = .next s' ∧ s'.sched = turns ∧ Host.Core.run core s'.sched.length s' = .next s'' := by
  obtain ⟨s', h'⟩ := step_has_next s
  have hs' := step_sched hs h'
  refine ⟨s', h', hs', ?_⟩
  rw [hs, List.length_cons, run_succ _ h'] at h
  rw [hs']
  exact h

/-- An encoder `ACCEPT` turn that is enabled. -/
theorem step_encAccept {s : State} {turns : List Turn} {w : Token} {rest : List Token}
    (hs : s.sched = .encAccept :: turns) (hi : s.ei = w :: rest) (hr : s.rst = false) (hq : s.e.oq = []) :
    step s = .next { ({ s with sched := turns }.takeEI w rest) with e := s.e.accept w } := by
  have hf : fetch .encAccept { s with sched := turns } =
      some (decodeEI w, ({ s with sched := turns } : State).takeEI w rest) := by simp [fetch, hi, hr, hq]
  rw [step_cons hs, runTurn_of_fetch_some hf]
  exact exec_decodeEI w _ hr hq

/-- A decoder `ACCEPT` turn that is enabled. -/
theorem step_decAccept {s : State} {turns : List Turn} {w : Token} {rest : List Token}
    (hs : s.sched = .decAccept :: turns) (hi : s.di = w :: rest) (hr : s.rst = false) (hq : s.d.oq = []) :
    step s = .next { ({ s with sched := turns }.takeDI w rest) with d := s.d.accept w } := by
  have hf : fetch .decAccept { s with sched := turns } =
      some (decodeDI w, ({ s with sched := turns } : State).takeDI w rest) := by simp [fetch, hi, hr, hq]
  rw [step_cons hs, runTurn_of_fetch_some hf]
  exact exec_decodeDI w _ hr hq

/-- An encoder `EMIT` turn that is enabled. -/
theorem step_encEmit {s : State} {turns : List Turn} {h : EOToken} {rest : List EOToken}
    (hs : s.sched = .encEmit :: turns) (hr : s.rst = false) (hq : s.e.oq = h :: rest) :
    step s = .next ({ s with sched := turns }.handOutEO h rest) := by
  have hf : fetch .encEmit { s with sched := turns } = some (h.instr, { s with sched := turns }) := by
    simp [fetch, hq, hr]
  rw [step_cons hs, runTurn_of_fetch_some hf]
  exact exec_eoHead h rest _ hr hq

/-- A decoder `EMIT` turn that is enabled. -/
theorem step_decEmit {s : State} {turns : List Turn} {h : DOToken} {rest : List DOToken}
    (hs : s.sched = .decEmit :: turns) (hr : s.rst = false) (hq : s.d.oq = h :: rest) :
    step s = .next ({ s with sched := turns }.handOutDO h rest) := by
  have hf : fetch .decEmit { s with sched := turns } = some (h.instr, { s with sched := turns }) := by
    simp [fetch, hq, hr]
  rw [step_cons hs, runTurn_of_fetch_some hf]
  exact exec_doHead h rest _ hr hq

/-- An `EMIT` turn with nothing in the encoder's queue. -/
theorem step_encEmit_idle {s : State} {turns : List Turn} (hs : s.sched = .encEmit :: turns) (hq : s.e.oq = []) :
    step s = .next { s with sched := turns } := by
  have hf : fetch .encEmit { s with sched := turns } = none := by simp [fetch, hq]
  rw [step_cons hs, runTurn_of_fetch_none (by simp) (by simp) hf]

/-- An `EMIT` turn with nothing in the decoder's queue. -/
theorem step_decEmit_idle {s : State} {turns : List Turn} (hs : s.sched = .decEmit :: turns) (hq : s.d.oq = []) :
    step s = .next { s with sched := turns } := by
  have hf : fetch .decEmit { s with sched := turns } = none := by simp [fetch, hq]
  rw [step_cons hs, runTurn_of_fetch_none (by simp) (by simp) hf]

/-- `EMIT` turns drain the encoder's queue, those to spare changing nothing. -/
theorem run_encDrain (n : Nat) (s : State) (turns : List Turn) (hr : s.rst = false) (hn : s.e.oq.length ≤ n)
    (hs : s.sched = List.replicate n .encEmit ++ turns) :
    Host.Core.run core n s = .next { s with
      e := { s.e with oq := [] }
      sched := turns
      trace := { s.trace with eo := s.trace.eo ++ s.e.oq.map EOToken.word } } := by
  induction n generalizing s with
  | zero =>
    have hq : s.e.oq = [] := List.length_eq_zero_iff.1 (Nat.le_zero.1 hn)
    obtain ⟨⟨ehold, ehave, eq⟩, d, rst, ei, di, sched, trace, past⟩ := s
    simp_all
  | succ n ih =>
    obtain hq | ⟨h, rest, hq⟩ := nil_or_cons s.e.oq
    · exact (run_succ n (step_encEmit_idle hs hq)).trans (ih _ hr (by simp [hq]) rfl)
    · have hl : rest.length ≤ n := by simpa [hq] using hn
      have ht := ih (({ s with sched := List.replicate n .encEmit ++ turns } : State).handOutEO h rest) hr hl rfl
      exact (run_succ n (step_encEmit hs hr hq)).trans (ht.trans (by simp [hq]))

/-- `EMIT` turns drain the decoder's queue, those to spare changing nothing. -/
theorem run_decDrain (n : Nat) (s : State) (turns : List Turn) (hr : s.rst = false) (hn : s.d.oq.length ≤ n)
    (hs : s.sched = List.replicate n .decEmit ++ turns) :
    Host.Core.run core n s = .next { s with
      d := { s.d with oq := [] }
      sched := turns
      trace := { s.trace with dO := s.trace.dO ++ s.d.oq.map DOToken.word } } := by
  induction n generalizing s with
  | zero =>
    have hq : s.d.oq = [] := List.length_eq_zero_iff.1 (Nat.le_zero.1 hn)
    obtain ⟨e, ⟨acc, cnt, err, dq⟩, rst, ei, di, sched, trace, past⟩ := s
    simp_all
  | succ n ih =>
    obtain hq | ⟨h, rest, hq⟩ := nil_or_cons s.d.oq
    · exact (run_succ n (step_decEmit_idle hs hq)).trans (ih _ hr (by simp [hq]) rfl)
    · have hl : rest.length ≤ n := by simpa [hq] using hn
      have ht := ih (({ s with sched := List.replicate n .decEmit ++ turns } : State).handOutDO h rest) hr hl rfl
      exact (run_succ n (step_decEmit hs hr hq)).trans (ht.trans (by simp [hq]))

end Sys2Proof.Machine
end

