-- ==== Sys2Proof/Tests/Slice0.lean ====
section
/-! SUPPORT. The model's own tests. Expected values come from the tables of 95_test_vectors.md (named beside each test) or
are words written out from 30_encoding.md R61 to R64. The last part shows, for every statement with hypotheses, values
that meet them. -/

namespace Sys2Proof.Tests

open Sys2Proof Sys2Proof.Machine

/-! ## Well-formed and ill-formed terms (R62, R67 (c)) -/

theorem test_wf_esym_symbols : Instr.wf (.esym 0x30) = true ∧ Instr.wf (.esym 0x20) = true ∧
    Instr.wf (.esym 0x3A) = true := by decide
theorem test_wf_refuses_esym_lowercase : Instr.wf (.esym 0x61) = false := by decide
theorem test_wf_refuses_esym_neighbours : Instr.wf (.esym 0x3B) = false ∧ Instr.wf (.esym 0x40) = false ∧
    Instr.wf (.esym 0x5B) = false ∧ Instr.wf (.esym 0x2C) = false ∧ Instr.wf (.esym 0xFF) = false := by decide
theorem test_wf_other_rows : Instr.wf (.epush 0xFF) = true ∧ Instr.wf .eend = true ∧ Instr.wf (.dpush 0x61) = true ∧
    Instr.wf .dend = true ∧ Instr.wf .edone = true ∧ Instr.wf (.dbyte 0xFF) = true ∧ Instr.wf .ddoneOk = true ∧
    Instr.wf .ddoneErr = true := by decide

/-! ## Decoding, one word written out for each row (R61 to R64), and the words that are none (R67) -/

theorem test_decode_epush : decode .ei 0b001000010#9 = .ok (.epush 0x42) := rfl
theorem test_decode_eend : decode .ei 0b100000000#9 = .ok .eend := rfl
theorem test_decode_eend_alias : decode .ei 0b110101011#9 = .ok .eend := rfl
theorem test_decode_dpush : decode .di 0b011111111#9 = .ok (.dpush 0xFF) := rfl
theorem test_decode_dend : decode .di 0b100000000#9 = .ok .dend := rfl
theorem test_decode_dend_alias : decode .di 0b111111111#9 = .ok .dend := rfl
theorem test_decode_esym : decode .eo 0b000111010#9 = .ok (.esym 0x3A) := rfl
theorem test_decode_edone : decode .eo 0b100000000#9 = .ok .edone := rfl
theorem test_decode_dbyte : decode .dO 0b010000001#9 = .ok (.dbyte 0x81) := rfl
theorem test_decode_ddone_ok : decode .dO 0b100000000#9 = .ok .ddoneOk := rfl
theorem test_decode_ddone_err : decode .dO 0b100000001#9 = .ok .ddoneErr := rfl
theorem test_reject_esym : decode .eo 0b001100001#9 = .error (.esymNoSymbol 0x61) := rfl
theorem test_reject_edone : decode .eo 0b100000001#9 = .error (.edoneData 0x01) := rfl
theorem test_reject_ddone : decode .dO 0b100000010#9 = .error (.ddoneData 0x02) := rfl
theorem test_encode_words : encode (.epush 0x41) = 0x041#9 ∧ encode .eend = 0x100#9 ∧ encode (.dpush 0x61) = 0x061#9 ∧
    encode .dend = 0x100#9 ∧ encode (.esym 0x20) = 0x020#9 ∧ encode .edone = 0x100#9 ∧ encode (.dbyte 0xFF) = 0x0FF#9 ∧
    encode .ddoneOk = 0x100#9 ∧ encode .ddoneErr = 0x101#9 := by decide

/-- Numbered words, one of each port (log 9). -/
theorem test_table_words : decodeTableWord 16 0x041 = some (.epush 0x41) ∧ decodeTableWord 16 0x100 = some .eend ∧
    decodeTableWord 16 0x241 = some (.dpush 0x41) ∧ decodeTableWord 16 0x300 = some .dend ∧
    decodeTableWord 16 0x441 = some (.esym 0x41) ∧ decodeTableWord 16 0x500 = some .edone ∧
    decodeTableWord 16 0x641 = some (.dbyte 0x41) ∧ decodeTableWord 16 0x700 = some .ddoneOk ∧
    decodeTableWord 16 0x701 = some .ddoneErr ∧ decodeTableWord 16 0x461 = none ∧ decodeTableWord 16 0x800 = none := by
  decide

/-! ## The alphabet and the datapath (95_test_vectors.md 2.1, 2.2, 2.5, 2.6) -/

theorem test_symbolOf : (symbolOf 0).code = 0x30 ∧ (symbolOf 9).code = 0x39 ∧ (symbolOf 10).code = 0x41 ∧
    (symbolOf 35).code = 0x5A ∧ (symbolOf 36).code = 0x20 ∧ (symbolOf 41).code = 0x2D ∧ (symbolOf 44).code = 0x3A := by
  decide
theorem test_indexOf_found : indexOf 0x30 = some 0 ∧ indexOf 0x3A = some 44 ∧ indexOf 0x20 = some 36 ∧
    indexOf 0x5A = some 35 ∧ indexOf 0x2F = some 43 := by decide
theorem test_indexOf_notfound : indexOf 0x61 = none ∧ indexOf 0x7E = none ∧ indexOf 0x3D = none ∧ indexOf 0x2C = none ∧
    indexOf 0x3B = none ∧ indexOf 0x40 = none ∧ indexOf 0x5B = none ∧ indexOf 0x1F = none ∧ indexOf 0x21 = none ∧
    indexOf 0x00 = none ∧ indexOf 0x0A = none ∧ indexOf 0x80 = none ∧ indexOf 0xFF = none := by decide
theorem test_div3 : div3 0 = { c := 0, d := 0, e := 0 } ∧ div3 2024 = { c := 44, d := 44, e := 0 } ∧
    div3 2025 = { c := 0, d := 0, e := 1 } ∧ div3 16706 = { c := 11, d := 11, e := 8 } ∧
    div3 64799 = { c := 44, d := 44, e := 31 } ∧ div3 65535 = { c := 15, d := 16, e := 32 } := by decide
theorem test_div2 : div2 0 = { c := 0, d := 0 } ∧ div2 44 = { c := 44, d := 0 } ∧ div2 45 = { c := 0, d := 1 } ∧
    div2 255 = { c := 30, d := 5 } := by decide
theorem test_decTriple : decTriple 15 16 32 = some [0xFF, 0xFF] ∧ decTriple 16 16 32 = none ∧
    decTriple 32 21 32 = none ∧ decTriple 0 0 33 = none ∧ decTriple 44 44 44 = none ∧
    decTriple 11 11 8 = some [0x41, 0x42] := by decide
theorem test_decPair : decPair 30 5 = some [0xFF] ∧ decPair 31 5 = none ∧ decPair 0 6 = none ∧ decPair 44 44 = none ∧
    decPair 33 0 = some [0x21] := by decide

/-! ## One instruction on a small state (95_test_vectors.md 2.3, 2.4, 2.8) -/

/-- A state whose encoder has these contents. -/
def encAt (hold : Byte) (have_ : Bool) (oq : List EOToken) : State :=
  { State.reset with e := { hold := hold, have_ := have_, oq := oq } }

/-- A state whose decoder has these contents. -/
def decAt (acc : Acc) (cnt : Fin 3) (err : Bool) (oq : List DOToken) : State :=
  { State.reset with d := { acc := acc, cnt := cnt, err := err, oq := oq } }

/-- The state an answer gives, if it is a next state. -/
def after : Result → Option State
  | .next s => some s
  | .fault _ => none
  | .refused _ => none

/-- The encoder after an answer: `hold`, `have`, the words queued. -/
def encSays (r : Result) : Option (Byte × Bool × List Token) :=
  (after r).map (fun s => (s.e.hold, s.e.have_, s.e.oq.map EOToken.word))

/-- The decoder after an answer: `acc`, `cnt`, `err`, the words queued. -/
def decSays (r : Result) : Option (Acc × Fin 3 × Bool × List Token) :=
  (after r).map (fun s => (s.d.acc, s.d.cnt, s.d.err, s.d.oq.map DOToken.word))

theorem test_epush_first : encSays (exec (.epush 0x41) (encAt 0 false [])) = some (0x41, true, []) := by decide
theorem test_epush_second :
    encSays (exec (.epush 0x42) (encAt 0x41 true [])) = some (0, false, [0x042, 0x042, 0x038]) := by decide
theorem test_eend_idle : encSays (exec .eend (encAt 0 false [])) = some (0, false, [0x100]) := by decide
theorem test_eend_held :
    encSays (exec .eend (encAt 0x41 true [])) = some (0, false, [0x04B, 0x031, 0x100]) := by decide
theorem test_dpush_largest_triple :
    decSays (exec (.dpush 0x57) (decAt 735 2 false [])) = some (0, 0, false, [0x0FF, 0x0FF]) := by decide
theorem test_dpush_smallest_rejected :
    decSays (exec (.dpush 0x57) (decAt 736 2 false [])) = some (0, 0, true, []) := by decide
theorem test_dend_largest_pair :
    decSays (exec .dend (decAt 255 2 false [])) = some (0, 0, false, [0x0FF, 0x100]) := by decide
theorem test_dend_smallest_rejected :
    decSays (exec .dend (decAt 256 2 false [])) = some (0, 0, false, [0x101]) := by decide

/-- The queue of 2.8: `[0x042, 0x042, 0x038]`. -/
def bb8 : List EOToken := [.esym (symbolOf 11), .esym (symbolOf 11), .esym (symbolOf 8)]

theorem test_esym_emit :
    (after (exec (.esym 0x42) (encAt 0 false bb8))).map (fun s => (s.e.oq.map EOToken.word, s.trace.eo)) =
      some ([0x042, 0x038], [0x042]) := by decide
theorem test_esym_foreign : exec (.esym 0x61) (encAt 0 false bb8) = .refused (.noMeaning 0x61) := rfl
theorem test_edone_emit :
    (after (exec .edone (encAt 0 false [.edone]))).map (fun s => (s.e.oq, s.trace.eo)) = some ([], [0x100]) := by decide
theorem test_dbyte_emit :
    (after (exec (.dbyte 0x41) (decAt 0 0 false [.dbyte 0x41, .dbyte 0x42]))).map (fun s => (s.d.oq, s.trace.dO)) =
      some ([.dbyte 0x42], [0x041]) := by decide
theorem test_ddone_ok_emit :
    (after (exec .ddoneOk (decAt 0 0 false [.ddoneOk]))).map (fun s => (s.d.oq, s.trace.dO)) =
      some ([], [0x100]) := by decide
theorem test_ddone_err_emit :
    (after (exec .ddoneErr (decAt 0 0 false [.ddoneErr]))).map (fun s => (s.d.oq, s.trace.dO)) =
      some ([], [0x101]) := by decide
/-! ## The step and reset (95_test_vectors.md 2.7, 2.8) -/

/-- Reset with both partial groups open, first row of 2.7. -/
theorem test_reset_clears :
    (after (step { encAt 0x41 true [] with
      d := { acc := 506, cnt := 2, err := false, oq := [] }
      sched := [.assertReset] })).map (fun s => (s.e, s.d, s.rst)) = some (Encoder.idle, Decoder.idle, true) := by decide
theorem test_emit_on_empty_queue :
    after (step { State.reset with sched := [.encEmit] }) = some State.reset := by decide
/-- "`[0x042, 0x042, 0x038]` | `ACCEPT(any)` | no | unchanged" (2.8): the token stays with the producer. -/
theorem test_accept_waits_for_the_queue :
    after (step { encAt 0 false bb8 with ei := [0x041], sched := [.encAccept] }) =
      some { encAt 0 false bb8 with ei := [0x041] } := by decide
theorem test_accept_takes_one_word :
    (after (step { State.reset with ei := [0x041, 0x042], sched := [.encAccept] })).map
      (fun s => (s.e.hold, s.e.have_, s.ei, s.trace.ei)) = some (0x41, true, [0x042], [0x041]) := by decide

/-- One word of each port placed by `withFetchWord` and run by the very next step (log 9). -/
theorem test_withFetchWord_ei :
    encSays (step (State.reset.withFetchWord 16 0x041)) = some (0x41, true, []) := by decide
theorem test_withFetchWord_di :
    decSays (step (State.reset.withFetchWord 16 0x242)) = some (11, 1, false, []) := by decide
theorem test_withFetchWord_eo :
    (after (step (State.reset.withFetchWord 16 0x442))).map (fun s => (s.e.oq, s.trace.eo)) = some ([], [0x042]) := by
  decide
theorem test_withFetchWord_dO :
    (after (step (State.reset.withFetchWord 16 0x701))).map (fun s => (s.d.oq, s.trace.dO)) = some ([], [0x101]) := by
  decide

/-! ## Whole messages (95_test_vectors.md S1, S2, S7, 2.4) -/

theorem test_encode_AB : encodeText [0x41, 0x42] = [0x42, 0x42, 0x38] := by decide
theorem test_encode_Hello : encodeText [0x48, 0x65, 0x6C, 0x6C, 0x6F, 0x21, 0x21] =
    [0x25, 0x36, 0x39, 0x20, 0x56, 0x44, 0x39, 0x32, 0x45, 0x58, 0x30] := by decide
theorem test_decode_Hello : decodeText [0x25, 0x36, 0x39, 0x20, 0x56, 0x44, 0x39, 0x32, 0x45, 0x58, 0x30] =
    some [0x48, 0x65, 0x6C, 0x6C, 0x6F, 0x21, 0x21] := by decide
theorem test_decode_colons : decodeText [0x3A, 0x3A, 0x3A] = none := by decide
theorem test_decoderAnswer_void_bytes :
    decoderAnswer [0x42, 0x42, 0x38, 0x61] = [0x041, 0x042, 0x101] ∧
    decoderAnswer [0x42, 0x42, 0x20, 0x38] = [0x101] := by decide

/-! ## Witnesses: values that meet the hypotheses of each statement -/

theorem witness_DecodeReadsBackEveryEncodedToken :
    Instr.wf (.esym 0x30) = true ∧ Instr.wf (.esym 0x3A) = true ∧ Instr.wf (.dbyte 0xFF) = true := by decide
theorem witness_EncodeWritesBackEveryDecodedWord :
    decode .ei 0x1FF#9 = .ok .eend ∧ decode .di 0x0FF#9 = .ok (.dpush 0xFF) ∧ decode .dO 0x101#9 = .ok .ddoneErr :=
  ⟨rfl, rfl, rfl⟩
theorem witness_EveryInputWordIsAnInstruction :
    (0x100#9).getLsbD 8 = true ∧ (0x1FF#9).getLsbD 8 = true ∧ (0x000#9).getLsbD 8 = false ∧
      (0x0FF#9).getLsbD 8 = false := by decide
theorem witness_OutputPortsRejectWordsWithoutMeaning :
    ((0x101#9).getLsbD 8 = true ∧ 0x101#9 ≠ 0x100#9) ∧
    ((0x061#9).getLsbD 8 = false ∧ ∀ i : Index, (symbolOf i).code ≠ (0x061#9).extractLsb' 0 8) ∧
    ((0x102#9).getLsbD 8 = true ∧ 0x102#9 ≠ 0x100#9 ∧ 0x102#9 ≠ 0x101#9) := by decide
theorem witness_AlphabetIsTheClosedForm :
    (9 : Index).val ≤ 9 ∧ (10 ≤ (10 : Index).val ∧ (10 : Index).val ≤ 35) ∧
      (10 ≤ (35 : Index).val ∧ (35 : Index).val ≤ 35) ∧ 36 ≤ (36 : Index).val ∧ 36 ≤ (44 : Index).val := by decide
theorem witness_LookupsAreInverse : indexOf 0x3A = some 44 ∧ indexOf 0x30 = some 0 := by decide
theorem witness_InverseTableAgreesWithScan : indexOf 0x2C = none ∧ indexOf 0xFF = none := by decide
theorem witness_DivThreeGivesTheOnlyDigits :
    15 ≤ 44 ∧ 16 ≤ 44 ∧ (65535#16).toNat = 15 + 16 * 45 + 32 * 2025 := by decide
theorem witness_RangeValidatorReadsTheHighBits :
    (2024#11).toNat ≤ 2024 ∧ (256#11).toNat ≤ 2024 ∧ (255#11).toNat ≤ 2024 := by decide

/-- A state under reset with a turn of each unit to come. -/
def held (t : Turn) : State := { State.reset with rst := true, ei := [0x041], di := [0x041], sched := [t] }

theorem witness_ResetClearsBothUnitsAndHoldsThem :
    { encAt 0x41 true [] with sched := [.assertReset] }.sched = .assertReset :: [] ∧
    ((held .encAccept).sched = .encAccept :: [] ∧ (held .encAccept).rst = true) ∧
    ((held .decEmit).sched = .decEmit :: [] ∧ (held .decEmit).rst = true) ∧
    (held .releaseReset).sched = .releaseReset :: [] := by decide

/-- The idle units meet their invariants. -/
theorem idle_Inv : Encoder.idle.Inv ∧ Decoder.idle.Inv :=
  ⟨⟨fun _ => rfl, .inl rfl⟩, ⟨fun _ => rfl, by decide, by decide, by decide, .inl rfl⟩⟩

/-- A state with the invariant in which the decoder holds the largest accumulator. -/
def largest : State := decAt 2024 2 false []

theorem largest_Inv : largest.Inv :=
  ⟨idle_Inv.1, ⟨by decide, by decide, by decide, by decide, .inl rfl⟩, by decide⟩

theorem witness_PinsFollowTheQueues :
    (held .encAccept).Inv ∧ (held .encAccept).rst = true ∧ (encAt 0 false [.edone]).Inv ∧
      (encAt 0 false [.edone]).e.oq = .edone :: [] ∧ (decAt 0 0 false [.ddoneErr]).Inv ∧
      (decAt 0 0 false [.ddoneErr]).d.oq = .ddoneErr :: [] :=
  ⟨⟨idle_Inv.1, idle_Inv.2, fun _ => ⟨rfl, rfl⟩⟩, rfl,
    ⟨⟨fun _ => rfl, by simp [encAt]⟩, idle_Inv.2, by decide⟩, rfl,
    ⟨idle_Inv.1, ⟨fun _ => rfl, by decide, by decide, by decide, by simp [decAt, DOToken.isDone]⟩, by decide⟩, rfl⟩

theorem witness_EpushHoldsAByteOrEmitsAPair :
    ((encAt 0 false []).rst = false ∧ (encAt 0 false []).e.oq = [] ∧ (encAt 0 false []).e.have_ = false) ∧
    ((encAt 0xFF true []).rst = false ∧ (encAt 0xFF true []).e.oq = [] ∧ (encAt 0xFF true []).e.have_ = true) := by decide
theorem witness_EendEmitsTheRemainderAndDone :
    ((encAt 0 false []).rst = false ∧ (encAt 0 false []).e.oq = [] ∧ (encAt 0 false []).e.have_ = false) ∧
    ((encAt 0 true []).rst = false ∧ (encAt 0 true []).e.oq = [] ∧ (encAt 0 true []).e.have_ = true) := by decide

/-- What the statements about the decoder's instructions assume of the state. -/
def dReady (s : State) : Prop := s.rst = false ∧ s.d.oq = []

theorem dReady_decAt (acc : Acc) (cnt : Fin 3) (err : Bool) : dReady (decAt acc cnt err []) := ⟨rfl, rfl⟩

theorem witness_DpushAccumulatesEmitsOrRaises :
    (dReady (decAt 0 0 true []) ∧ (decAt 0 0 true []).d.err = true) ∧
    (dReady (decAt 0 0 false []) ∧ (decAt 0 0 false []).d.err = false ∧ indexOf 0x61 = none) ∧
    (dReady (decAt 0 0 false []) ∧ indexOf 0x3A = some 44 ∧ (decAt 0 0 false []).d.cnt = 0) ∧
    (dReady (decAt 44 1 false []) ∧ indexOf 0x3A = some 44 ∧ (decAt 44 1 false []).d.cnt = 1 ∧
      (decAt 44 1 false []).d.acc.toNat ≤ 44) ∧
    (dReady (decAt 735 2 false []) ∧ indexOf 0x57 = some 32 ∧ (decAt 735 2 false []).d.cnt = 2 ∧
      (decAt 735 2 false []).d.acc.toNat + (32 : Index).val * 2025 ≤ 65535) ∧
    (dReady (decAt 736 2 false []) ∧ indexOf 0x57 = some 32 ∧ (decAt 736 2 false []).d.cnt = 2 ∧
      65535 < (decAt 736 2 false []).d.acc.toNat + (32 : Index).val * 2025) := by
  simp only [dReady_decAt, true_and]
  decide
theorem witness_DendClosesTheMessage :
    (dReady (decAt 0 0 true []) ∧ (decAt 0 0 true []).d.err = true) ∧
    (dReady (decAt 0 0 false []) ∧ (decAt 0 0 false []).d.err = false ∧ (decAt 0 0 false []).d.cnt = 0) ∧
    (dReady (decAt 44 1 false []) ∧ (decAt 44 1 false []).d.err = false ∧ (decAt 44 1 false []).d.cnt = 1) ∧
    (dReady (decAt 255 2 false []) ∧ (decAt 255 2 false []).d.cnt = 2 ∧ (decAt 255 2 false []).d.acc.toNat ≤ 255) ∧
    (dReady (decAt 256 2 false []) ∧ (decAt 256 2 false []).d.cnt = 2 ∧ 255 < (decAt 256 2 false []).d.acc.toNat) := by
  simp only [dReady_decAt, true_and]
  decide
theorem witness_EncoderEmitHandsOutTheHead :
    (encAt 0 false bb8).rst = false ∧
    (encAt 0 false bb8).e.oq = .esym (symbolOf 11) :: [.esym (symbolOf 11), .esym (symbolOf 8)] ∧
    (encAt 0 false [.edone]).rst = false ∧ (encAt 0 false [.edone]).e.oq = .edone :: [] := by decide
theorem witness_DecoderEmitHandsOutTheHead :
    (decAt 0 0 false [.dbyte 0xFF, .ddoneOk]).rst = false ∧
    (decAt 0 0 false [.dbyte 0xFF, .ddoneOk]).d.oq = .dbyte 0xFF :: [.ddoneOk] ∧
    (decAt 0 0 false [.ddoneOk]).rst = false ∧ (decAt 0 0 false [.ddoneOk]).d.oq = .ddoneOk :: [] ∧
    (decAt 0 0 false [.ddoneErr]).rst = false ∧ (decAt 0 0 false [.ddoneErr]).d.oq = .ddoneErr :: [] := by decide
theorem witness_StepsThatAreNotEnabledChangeNothing :
    (held .encAccept).rst = true ∧ (encAt 0 false bb8).e.oq ≠ [] ∧ (decAt 0 0 false [.ddoneOk]).d.oq ≠ [] ∧
    (encAt 0 false bb8).e.oq.head? ≠ some (.esym (symbolOf 8)) ∧ (encAt 0 false bb8).e.oq.head? ≠ some .edone ∧
    (decAt 0 0 false [.ddoneOk]).d.oq.head? ≠ some (.dbyte 0xFF) ∧
    (decAt 0 0 false [.ddoneErr]).d.oq.head? ≠ some .ddoneOk ∧
    (decAt 0 0 false [.ddoneOk]).d.oq.head? ≠ some .ddoneErr := by decide
theorem witness_OnlyAForeignEsymStops :
    (∀ k : Index, (symbolOf k).code ≠ 0x61#8) ∧ (∀ k : Index, (symbolOf k).code ≠ 0x3B#8) ∧
    (∃ k : Index, (symbolOf k).code = 0x3A#8) := by decide
theorem witness_InputInstructionsTouchOnlyTheirUnit :
    (∃ s', exec (.epush 0x42) (encAt 0x41 true []) = .next s' ∧ (Instr.epush 0x42).port = .ei) ∧
    (∃ s', exec .eend (encAt 0x41 true []) = .next s' ∧ Instr.eend.port = .ei) ∧
    (∃ s', exec (.dpush 0x57) (decAt 736 2 false []) = .next s' ∧ (Instr.dpush 0x57).port = .di) ∧
    (∃ s', exec .dend (decAt 256 2 false []) = .next s' ∧ Instr.dend.port = .di) :=
  ⟨⟨_, rfl, rfl⟩, ⟨_, rfl, rfl⟩, ⟨_, rfl, rfl⟩, ⟨_, rfl, rfl⟩⟩
theorem witness_OutputTokensTouchOnlyQueueAndStream :
    (∃ s', exec (.esym 0x42) (encAt 0 false bb8) = .next s' ∧ (Instr.esym 0x42).port = .eo) ∧
    (∃ s', exec .edone (encAt 0 false [.edone]) = .next s' ∧ Instr.edone.port = .eo) ∧
    (∃ s', exec (.dbyte 0) (decAt 0 0 false [.dbyte 0]) = .next s' ∧ (Instr.dbyte 0).port = .dO) ∧
    (∃ s', exec .ddoneOk (decAt 0 0 false [.ddoneOk]) = .next s' ∧ Instr.ddoneOk.port = .dO) ∧
    (∃ s', exec .ddoneErr (decAt 0 0 false [.ddoneErr]) = .next s' ∧ Instr.ddoneErr.port = .dO) :=
  ⟨⟨_, rfl, rfl⟩, ⟨_, rfl, rfl⟩, ⟨_, rfl, rfl⟩, ⟨_, rfl, rfl⟩, ⟨_, rfl, rfl⟩⟩

/-- Both units idle, both producers with a word to offer, one turn to take. -/
def offering (w : Token) (t : Turn) : State := { State.reset with ei := [w], di := [w], sched := [t] }

theorem witness_StepRunsTheDecodedInputToken :
    ((offering 0x041 .encAccept).rst = false ∧ (offering 0x041 .encAccept).sched = .encAccept :: [] ∧
      (offering 0x041 .encAccept).ei = 0x041 :: [] ∧ (offering 0x041 .encAccept).e.oq = [] ∧
      decode .ei 0x041 = .ok (.epush 0x41)) ∧
    ((offering 0x1FF .decAccept).rst = false ∧ (offering 0x1FF .decAccept).sched = .decAccept :: [] ∧
      (offering 0x1FF .decAccept).di = 0x1FF :: [] ∧ (offering 0x1FF .decAccept).d.oq = [] ∧
      decode .di 0x1FF = .ok .dend) :=
  ⟨⟨rfl, rfl, rfl, rfl, rfl⟩, ⟨rfl, rfl, rfl, rfl, rfl⟩⟩
theorem witness_StepRunsTheQueuedOutputToken :
    ({ encAt 0 false [.edone] with sched := [.encEmit] }.rst = false ∧
      { encAt 0 false [.edone] with sched := [.encEmit] }.sched = .encEmit :: [] ∧
      { encAt 0 false [.edone] with sched := [.encEmit] }.e.oq = .edone :: [] ∧
      decode .eo EOToken.edone.word = .ok .edone) ∧
    ({ decAt 0 0 false [.ddoneErr] with sched := [.decEmit] }.rst = false ∧
      { decAt 0 0 false [.ddoneErr] with sched := [.decEmit] }.sched = .decEmit :: [] ∧
      { decAt 0 0 false [.ddoneErr] with sched := [.decEmit] }.d.oq = .ddoneErr :: [] ∧
      decode .dO DOToken.ddoneErr.word = .ok .ddoneErr) :=
  ⟨⟨rfl, rfl, rfl, rfl⟩, ⟨rfl, rfl, rfl, rfl⟩⟩
theorem witness_IdleTurnsChangeOnlyTheSchedule :
    State.reset.sched = [] ∧
    ({ State.reset with sched := [.encAccept] }.sched = .encAccept :: [] ∧ State.reset.ei = []) ∧
    ({ encAt 0 false bb8 with sched := [.encAccept] }.sched = .encAccept :: [] ∧ (encAt 0 false bb8).e.oq ≠ []) ∧
    ({ State.reset with sched := [.decAccept] }.sched = .decAccept :: [] ∧ State.reset.di = []) ∧
    ({ State.reset with sched := [.encEmit] }.sched = .encEmit :: [] ∧ State.reset.e.oq = []) ∧
    ({ State.reset with sched := [.decEmit] }.sched = .decEmit :: [] ∧ State.reset.d.oq = []) := by decide

theorem witness_EveryStepKeepsTheInvariant :
    { largest with di := [0x03A], sched := [.decAccept] }.Inv ∧
      ∃ s', step { largest with di := [0x03A], sched := [.decAccept] } = .next s' ∧ s'.d.err = true :=
  ⟨largest_Inv, _, rfl, by decide⟩
theorem witness_AccumulatorNeverWraps : largest.Inv ∧ largest.d.acc.toNat + (44 : Index).val * 2025 = 91124 :=
  ⟨largest_Inv, by decide⟩
theorem witness_ErrorFlagRisesAndFallsByTheRule :
    (∃ s', step (offering 0x061 .decAccept) = .next s' ∧ (offering 0x061 .decAccept).pins.decErr = false ∧
      s'.pins.decErr = true) ∧
    (∃ s', step { decAt 736 2 false [] with di := [0x057], sched := [.decAccept] } = .next s' ∧
      s'.pins.decErr = true) ∧
    (∃ s', step { decAt 0 0 true [] with di := [0x100], sched := [.decAccept] } = .next s' ∧
      (decAt 0 0 true []).pins.decErr = true ∧ s'.pins.decErr = false) ∧
    (∃ s', step { decAt 0 0 true [] with sched := [.assertReset] } = .next s' ∧ s'.pins.decErr = false) :=
  ⟨⟨_, rfl, by decide, by decide⟩, ⟨_, rfl, by decide⟩, ⟨_, rfl, by decide, by decide⟩, ⟨_, rfl, by decide⟩⟩
theorem witness_AcceptNeedsAnEmptyQueue :
    (∃ s', step (offering 0x041 .encAccept) = .next s' ∧ s'.trace.ei ≠ (offering 0x041 .encAccept).trace.ei) ∧
    (∃ s', step { encAt 0 false [.edone] with sched := [.encEmit] } = .next s' ∧ s'.trace.eo ≠ []) ∧
    (∃ s', step (offering 0x041 .decAccept) = .next s' ∧ s'.trace.di ≠ (offering 0x041 .decAccept).trace.di) ∧
    (∃ s', step { decAt 0 0 false [.ddoneOk] with sched := [.decEmit] } = .next s' ∧ s'.trace.dO ≠ []) :=
  ⟨⟨_, rfl, by decide⟩, ⟨_, rfl, by decide⟩, ⟨_, rfl, by decide⟩, ⟨_, rfl, by decide⟩⟩
theorem witness_NoInputTokenIsLostOrDuplicated :
    ∃ s', step (offering 0x041 .encAccept) = .next s' ∧ s'.ei ≠ (offering 0x041 .encAccept).ei :=
  ⟨_, rfl, by decide⟩
theorem witness_EveryEndGetsExactlyOneDone :
    (∃ s', step (offering 0x100 .encAccept) = .next s') ∧
    ((offering 0x100 .encAccept).trace.eo ++ (offering 0x100 .encAccept).e.oq.map EOToken.word).countP tokKind =
      (offering 0x100 .encAccept).trace.ei.countP tokKind ∧
    (∃ s', step (offering 0x100 .decAccept) = .next s') ∧
    ((offering 0x100 .decAccept).trace.dO ++ (offering 0x100 .decAccept).d.oq.map DOToken.word).countP tokKind =
      (offering 0x100 .decAccept).trace.di.countP tokKind :=
  ⟨⟨_, rfl⟩, rfl, ⟨_, rfl⟩, rfl⟩

/-- Two runs with the same encoder side and different decoder sides and turns. -/
theorem witness_EncoderIsIndependentOfTheDecoder :
    (State.start [0x041] [] [.encAccept]).sameEncoderSide (State.start [0x041] [0x061] [.decAccept, .encAccept]) ∧
    (State.start [0x041] [] [.encAccept]).sched.filter (fun x => x ≠ .decAccept ∧ x ≠ .decEmit) =
      (State.start [0x041] [0x061] [.decAccept, .encAccept]).sched.filter (fun x => x ≠ .decAccept ∧ x ≠ .decEmit) ∧
    (∃ s', Host.Core.run core 1 (State.start [0x041] [] [.encAccept]) = .next s') ∧
    (∃ t', Host.Core.run core 2 (State.start [0x041] [0x061] [.decAccept, .encAccept]) = .next t') :=
  ⟨⟨rfl, rfl, rfl, rfl, rfl⟩, by decide, ⟨_, rfl⟩, ⟨_, rfl⟩⟩
theorem witness_DecoderIsIndependentOfTheEncoder :
    (State.start [] [0x061] [.decAccept]).sameDecoderSide (State.start [0x041] [0x061] [.encAccept, .decAccept]) ∧
    (State.start [] [0x061] [.decAccept]).sched.filter (fun x => x ≠ .encAccept ∧ x ≠ .encEmit) =
      (State.start [0x041] [0x061] [.encAccept, .decAccept]).sched.filter (fun x => x ≠ .encAccept ∧ x ≠ .encEmit) ∧
    (∃ s', Host.Core.run core 1 (State.start [] [0x061] [.decAccept]) = .next s') ∧
    (∃ t', Host.Core.run core 2 (State.start [0x041] [0x061] [.encAccept, .decAccept]) = .next t') :=
  ⟨⟨rfl, rfl, rfl, rfl, rfl⟩, by decide, ⟨_, rfl⟩, ⟨_, rfl⟩⟩

theorem witness_EncodeUndoesDecode : decodeText [0x55, 0x35] = some [0xFF] ∧ decodeText [] = some [] ∧
    decodeText [0x46, 0x47, 0x57] = some [0xFF, 0xFF] := by decide
theorem witness_LengthLaws : decodeText [0x55, 0x35] = some [0xFF] ∧ (decodeAnswer [0x41]).2 = false ∧
    (decodeAnswer [0x42, 0x42, 0x38, 0x42]).2 = false := by decide
theorem witness_EncodedTextIsFromTheAlphabet : (0x3A : Byte) ∈ encodeText [0x2C] := by decide
theorem witness_AFailedMessageSendsNothingMore :
    (decodeScan [0x61]).2 = none ∧ (decodeScan [0x47, 0x47, 0x57]).2 = none := by decide

/-- The encoder has accepted one byte, and the decoder one character. -/
def oneTaken : State :=
  { encAt 0x41 true [] with
    d := { acc := 11, cnt := 1, err := false, oq := [] }
    trace := { ei := [0x041], eo := [], di := [0x042], dO := [] } }

theorem witness_EveryStepKeepsTheEncoderOnTrack :
    { oneTaken with ei := [0x100], sched := [.encAccept] }.EncoderTracks ∧
      ∃ s', step { oneTaken with ei := [0x100], sched := [.encAccept] } = .next s' :=
  ⟨⟨by decide, by decide, by decide⟩, _, rfl⟩
theorem witness_EveryStepKeepsTheDecoderOnTrack :
    { oneTaken with di := [0x100], sched := [.decAccept] }.DecoderTracks ∧
      ∃ s', step { oneTaken with di := [0x100], sched := [.decAccept] } = .next s' :=
  ⟨⟨by decide, by decide, by decide, by decide⟩, _, rfl⟩
theorem witness_EncoderResultsAreEncodeOfTheMessages :
    ∃ s, Host.Core.run core 2 (State.start [0x100] [] [.encAccept, .encEmit]) = .next s ∧ s.e.oq = [] ∧
      messages s.trace.ei = [[]] :=
  ⟨_, rfl, by decide, by decide⟩
theorem witness_DecoderResultsAreDecodeOfTheMessages :
    ∃ s, Host.Core.run core 3 (State.start [] [0x061, 0x100] [.decAccept, .decAccept, .decEmit]) = .next s ∧
      s.d.oq = [] ∧ messages s.trace.di = [[0x61]] :=
  ⟨_, rfl, by decide, by decide⟩
theorem witness_UnitsAreIdleWhenARunIsOver :
    ∃ s, Host.Core.run core 2 (State.start [0x100] [] [.encAccept, .encEmit]) = .next s ∧ s.RunOver :=
  ⟨_, rfl, by decide, by decide, by decide, by decide, by decide, by decide⟩
theorem witness_EncoderFinishesEveryMessage :
    (State.start [0x041, 0x100, 0x000] [] [.encAccept, .encAccept, .encEmit, .encEmit, .encEmit]).rst = false ∧
    (State.start [0x041, 0x100, 0x000] [] [.encAccept, .encAccept, .encEmit, .encEmit, .encEmit]).e = Encoder.idle ∧
    (State.start [0x041, 0x100, 0x000] [] [.encAccept, .encAccept, .encEmit, .encEmit, .encEmit]).ei =
      encodeTokens [0x41] ++ [0x000] ∧
    (State.start [0x041, 0x100, 0x000] [] [.encAccept, .encAccept, .encEmit, .encEmit, .encEmit]).sched =
      encoderTurns [0x41] ++ [] := by decide
theorem witness_DecoderFinishesEveryMessage :
    (State.start [] [0x061, 0x100] (decoderTurns 1)).rst = false ∧
    (State.start [] [0x061, 0x100] (decoderTurns 1)).d = Decoder.idle ∧
    (State.start [] [0x061, 0x100] (decoderTurns 1)).di = decodeTokens [0x61] ++ [] ∧
    (State.start [] [0x061, 0x100] (decoderTurns 1)).sched = decoderTurns [(0x61 : Byte)].length ++ [] := by decide
theorem witness_ForeignCharactersFailTheMessage : ∀ i : Index, (symbolOf i).code ≠ 0x61#8 := by decide
theorem witness_LengthOneModThreeFailsTheMessage :
    (∀ ch ∈ [0x42#8, 0x42#8, 0x38#8, 0x42#8], ∃ i : Index, (symbolOf i).code = ch) ∧
    [0x42#8, 0x42#8, 0x38#8, 0x42#8].length % 3 = 1 ∧ (decodeScan [0x42, 0x42, 0x38, 0x42]).2 ≠ none := by decide

end Sys2Proof.Tests
end

section
/-! PROOF. What crosses a port in one step (00_scope.md R11, 10_state.md R30, R54, 70_reset_and_hazards.md R176). -/

namespace Sys2Proof.Machine

/-- Settles O34, by the cases of a step: an `ACCEPT` and an `EMIT` each add one word to one stream and leave the other
three alone, under their guard on the queue; `RESET` alone restarts the streams; any other turn leaves all four. -/
theorem acceptNeedsAnEmptyQueue : Obligations.AcceptNeedsAnEmptyQueue := by
  intro s s' h
  cases step_cases h with
  | noTurn | releaseReset | notEnabled => exact ⟨absurd rfl, absurd rfl, absurd rfl, absurd rfl⟩
  | assertReset =>
    exact ⟨fun _ => .inl rfl, fun _ => .inl rfl, fun _ => .inl rfl, fun _ => .inl rfl⟩
  | encAccept _ w _ _ _ _ hq => exact ⟨fun _ => .inr ⟨hq, rfl, w, rfl⟩, absurd rfl, absurd rfl, absurd rfl⟩
  | decAccept _ w _ _ _ _ hq => exact ⟨absurd rfl, absurd rfl, fun _ => .inr ⟨hq, rfl, w, rfl⟩, absurd rfl⟩
  | encEmit _ head rest _ _ hq =>
    exact ⟨absurd rfl, fun _ => .inr ⟨head, rest, hq, rfl, rfl⟩, absurd rfl, absurd rfl⟩
  | decEmit _ head rest _ _ hq =>
    exact ⟨absurd rfl, absurd rfl, absurd rfl, fun _ => .inr ⟨head, rest, hq, rfl, rfl⟩⟩

end Sys2Proof.Machine
end

section
/-! PROOF. What `DPUSH` and `DEND` can do to the decoder, said once (42_decoder.md R117, R118), and when `exec` answers
the same state (10_state.md R30, 70_reset_and_hazards.md R176, R178). -/

namespace Sys2Proof.Machine

/-- The cases of `DPUSH ch` on the decoder `u` (R117, R153). -/
inductive Decoder.PushCase (ch : Byte) (u : Decoder) : Decoder → Prop where
  | discarded (he : u.err = true) : PushCase ch u u
  | raised (he : u.err = false)
      (why : indexOf ch = none ∨
        (u.cnt = 2 ∧ ∃ i : Index, indexOf ch = some i ∧ 65535 < u.acc.toNat + i.val * 2025)) :
      PushCase ch u { u with acc := 0, cnt := 0, err := true }
  | first (i : Index) (he : u.err = false) (hi : indexOf ch = some i) (hc : u.cnt = 0) :
      PushCase ch u { u with acc := BitVec.ofNat 17 i.val, cnt := 1 }
  | second (i : Index) (he : u.err = false) (hi : indexOf ch = some i) (hc : u.cnt = 1) :
      PushCase ch u { u with acc := BitVec.ofNat 17 (u.acc.toNat + i.val * 45), cnt := 2 }
  | third (i : Index) (he : u.err = false) (hi : indexOf ch = some i) (hc : u.cnt = 2)
      (hv : u.acc.toNat + i.val * 2025 ≤ 65535) :
      PushCase ch u { u with
        acc := 0, cnt := 0
        oq := u.oq ++ [.dbyte (byteHi (u.acc.toNat + i.val * 2025)), .dbyte (byteLo (u.acc.toNat + i.val * 2025))] }

/-- The cases of `DEND` on the decoder `u` (R118, R154). -/
inductive Decoder.FinishCase (u : Decoder) : Decoder → Prop where
  | failed (why : u.err = true ∨ u.cnt = 1 ∨ (u.cnt = 2 ∧ 255 < u.acc.toNat)) :
      FinishCase u { acc := 0, cnt := 0, err := false, oq := u.oq ++ [.ddoneErr] }
  | complete (he : u.err = false) (hc : u.cnt = 0) :
      FinishCase u { acc := 0, cnt := 0, err := false, oq := u.oq ++ [.ddoneOk] }
  | remainder (he : u.err = false) (hc : u.cnt = 2) (hv : u.acc.toNat ≤ 255) :
      FinishCase u { acc := 0, cnt := 0, err := false, oq := u.oq ++ [.dbyte (byteLo u.acc.toNat), .ddoneOk] }

/-- `D.cnt` is 0, 1 or 2 (R25). -/
theorem Decoder.cnt_cases (u : Decoder) : u.cnt = 0 ∨ u.cnt = 1 ∨ u.cnt = 2 := by
  generalize u.cnt = c
  decide +revert

section DecoderEquations
variable {u : Decoder} {ch : Byte} {i : Index} {v : Nat}

theorem Decoder.push_discarded (he : u.err = true) : u.push ch = u :=
  if_pos he

theorem Decoder.push_notFound (he : u.err = false) (hi : indexOf ch = none) :
    u.push ch = { u with acc := 0, cnt := 0, err := true } := by
  simp only [Decoder.push, he, hi]
  rfl

theorem Decoder.push_found (he : u.err = false) (hi : indexOf ch = some i) : u.push ch = u.fold i := by
  simp only [Decoder.push, he, hi]
  rfl

theorem Decoder.fold_first (hc : u.cnt = 0) : u.fold i = { u with acc := BitVec.ofNat 17 i.val, cnt := 1 } :=
  if_pos hc

theorem Decoder.fold_second (hc : u.cnt = 1) :
    u.fold i = { u with acc := BitVec.ofNat 17 (u.acc.toNat + i.val * 45), cnt := 2 } := by
  simp [Decoder.fold, hc, pairValue]

theorem Decoder.fold_third (hc : u.cnt = 2) : u.fold i = u.complete (u.acc.toNat + i.val * 2025) := by
  simp [Decoder.fold, hc, tripleValue]

theorem Decoder.complete_over (hv : 65535 < v) : u.complete v = { u with acc := 0, cnt := 0, err := true } :=
  if_pos ((overTriple_eq_true v).2 hv)

theorem Decoder.complete_inRange (hv : v ≤ 65535) :
    u.complete v = { u with acc := 0, cnt := 0, oq := u.oq ++ [.dbyte (byteHi v), .dbyte (byteLo v)] } :=
  if_neg (mt (overTriple_eq_true v).1 (Nat.not_lt.2 hv))

end DecoderEquations

/-- What `DEND` emits is all it leaves: the clearing writes happen in every case (R118). -/
theorem Decoder.finish_eq (u : Decoder) :
    u.finish = { acc := 0, cnt := 0, err := false, oq := u.close.oq } :=
  rfl

/-- Everything `DPUSH` can do to the decoder. -/
theorem Decoder.push_cases (ch : Byte) (u : Decoder) : Decoder.PushCase ch u (u.push ch) := by
  cases he : u.err with
  | true =>
    rw [Decoder.push_discarded he]
    exact .discarded he
  | false =>
    cases hi : indexOf ch with
    | none =>
      rw [Decoder.push_notFound he hi]
      exact .raised he (.inl hi)
    | some i =>
      rw [Decoder.push_found he hi]
      obtain hc | hc | hc := u.cnt_cases
      · rw [Decoder.fold_first hc]
        exact .first i he hi hc
      · rw [Decoder.fold_second hc]
        exact .second i he hi hc
      · rw [Decoder.fold_third hc]
        obtain hv | hv := le_or_gt (u.acc.toNat + i.val * 2025) 65535
        · rw [Decoder.complete_inRange hv]
          exact .third i he hi hc hv
        · rw [Decoder.complete_over hv]
          exact .raised he (.inr ⟨hc, i, hi, hv⟩)

/-- Everything `DEND` can do to the decoder. -/
theorem Decoder.finish_cases (u : Decoder) : Decoder.FinishCase u u.finish := by
  rw [Decoder.finish_eq]
  cases he : u.err with
  | true =>
    have hq : u.close.oq = u.oq ++ [.ddoneErr] := by simp [Decoder.close, he]
    rw [hq]
    exact .failed (.inl he)
  | false =>
    obtain hc | hc | hc := u.cnt_cases
    · have hq : u.close.oq = u.oq ++ [.ddoneOk] := by simp [Decoder.close, he, hc]
      rw [hq]
      exact .complete he hc
    · have hq : u.close.oq = u.oq ++ [.ddoneErr] := by simp [Decoder.close, he, hc, Decoder.raise]
      rw [hq]
      exact .failed (.inr (.inl hc))
    · obtain hv | hv := le_or_gt u.acc.toNat 255
      · have hq : u.close.oq = u.oq ++ [.dbyte (byteLo u.acc.toNat), .ddoneOk] := by
          simp [Decoder.close, he, hc, Nat.not_lt.2 hv]
        rw [hq]
        exact .remainder he hc hv
      · have hq : u.close.oq = u.oq ++ [.ddoneErr] := by simp [Decoder.close, he, hc, hv, Decoder.raise]
        rw [hq]
        exact .failed (.inr (.inr ⟨hc, hv⟩))

/-- An END word is `DEND`. -/
theorem Decoder.accept_end {w : Token} (hw : tokKind w = true) (u : Decoder) : u.accept w = u.finish :=
  if_pos hw

/-- A data word is `DPUSH` of its data. -/
theorem Decoder.accept_data {w : Token} (hw : tokKind w = false) (u : Decoder) : u.accept w = u.push (tokData w) := by
  simp [Decoder.accept, hw]

section NotEnabled
variable {s : State}

theorem acceptE_notEnabled (f : Encoder → Encoder) (h : s.rst = true ∨ s.e.oq ≠ []) : acceptE f s = s := by
  obtain ⟨hr, hq, -⟩ | ⟨-, hs⟩ := acceptE_cases f s
  · simp [hr, hq] at h
  · exact hs

theorem acceptD_notEnabled (f : Decoder → Decoder) (h : s.rst = true ∨ s.d.oq ≠ []) : acceptD f s = s := by
  obtain ⟨hr, hq, -⟩ | ⟨-, hs⟩ := acceptD_cases f s
  · simp [hr, hq] at h
  · exact hs

/-- Queue entries of the encoder with the same place in `Instr` are the same: a symbol is its code. -/
theorem EOToken.instr_injective : Function.Injective EOToken.instr := by
  rintro (⟨a, ha⟩ | _) (⟨b, hb⟩ | _) h <;> simp_all [EOToken.instr]

/-- Queue entries of the decoder with the same place in `Instr` are the same. -/
theorem DOToken.instr_injective : Function.Injective DOToken.instr := by
  rintro (_ | _ | _) (_ | _ | _) h <;> simp_all [DOToken.instr]

theorem emitE_notHead (t : EOToken) (h : s.rst = true ∨ s.e.oq.head? ≠ some t) : emitE t.instr s = s := by
  obtain ⟨t', rest, hr, hq, ht, -⟩ | ⟨-, hs⟩ := emitE_cases t.instr s
  · simp [hr, hq, EOToken.instr_injective ht] at h
  · exact hs

theorem emitD_notHead (t : DOToken) (h : s.rst = true ∨ s.d.oq.head? ≠ some t) : emitD t.instr s = s := by
  obtain ⟨t', rest, hr, hq, ht, -⟩ | ⟨-, hs⟩ := emitD_cases t.instr s
  · simp [hr, hq, DOToken.instr_injective ht] at h
  · exact hs

/-- A queue entry of the encoder runs as its `EMIT` step, in every state. -/
theorem exec_eoToken (t : EOToken) (s : State) : exec t.instr s = .next (emitE t.instr s) := by
  cases t with
  | esym y => exact if_pos y.isCode
  | edone => rfl

/-- A queue entry of the decoder runs as its `EMIT` step, in every state. -/
theorem exec_doToken (t : DOToken) (s : State) : exec t.instr s = .next (emitD t.instr s) := by
  cases t <;> rfl

theorem exec_eoToken_notHead (t : EOToken) (h : s.rst = true ∨ s.e.oq.head? ≠ some t) :
    exec t.instr s = .next s := by
  rw [exec_eoToken, emitE_notHead t h]

theorem exec_doToken_notHead (t : DOToken) (h : s.rst = true ∨ s.d.oq.head? ≠ some t) :
    exec t.instr s = .next s := by
  rw [exec_doToken, emitD_notHead t h]

end NotEnabled

/-- Settles O22: an input instruction is an `ACCEPT` that is not enabled, an output token an `EMIT` of what is not the
head. -/
theorem stepsThatAreNotEnabledChangeNothing : Obligations.StepsThatAreNotEnabledChangeNothing := by
  intro s
  refine ⟨fun h b => ⟨congrArg _ (acceptE_notEnabled _ h), congrArg _ (acceptE_notEnabled _ h)⟩,
    fun h ch => ⟨congrArg _ (acceptD_notEnabled _ h), congrArg _ (acceptD_notEnabled _ h)⟩, ?_, ?_, ?_, ?_, ?_⟩
  · exact fun y h => exec_eoToken_notHead (.esym y) h
  · exact fun h => exec_eoToken_notHead .edone h
  · exact fun b h => exec_doToken_notHead (.dbyte b) h
  · exact fun h => exec_doToken_notHead .ddoneOk h
  · exact fun h => exec_doToken_notHead .ddoneErr h

end Sys2Proof.Machine
end

section
/-! PROOF. The invariant of reachable states: it holds at reset and every step keeps it (10_state.md R30, R31, R32). -/

namespace Sys2Proof.Machine

/-- The shapes of `E.oq` (R30): what is left of three symbols, or of at most two symbols and `EDONE`. -/
def EOShape (q : List EOToken) : Prop :=
  q = [] ∨ (∃ a b c, q = [.esym a, .esym b, .esym c]) ∨ (∃ a b, q = [.esym a, .esym b]) ∨ (∃ a, q = [.esym a]) ∨
    (∃ a b, q = [.esym a, .esym b, .edone]) ∨ (∃ a, q = [.esym a, .edone]) ∨ q = [.edone]

/-- The shapes of `D.oq` (R30): what is left of two bytes, or of at most one byte and a `DDONE`. -/
def DOShape (q : List DOToken) : Prop :=
  q = [] ∨ (∃ a b, q = [.dbyte a, .dbyte b]) ∨ (∃ a, q = [.dbyte a]) ∨
    (∃ a t, q = [.dbyte a, t] ∧ t.isDone = true) ∨ (∃ t, q = [t] ∧ t.isDone = true)

/-- R32 (c) and (d): what the decoder's registers hold between steps. -/
def Decoder.GroupInv (u : Decoder) : Prop :=
  (u.cnt = 0 → u.acc = 0) ∧ (u.cnt = 1 → u.acc.toNat ≤ 44) ∧ (u.cnt = 2 → u.acc.toNat ≤ 2024) ∧
  (u.err = true → u.cnt = 0 ∧ u.acc = 0)

theorem Encoder.inv_iff (u : Encoder) : u.Inv ↔ (u.have_ = false → u.hold = 0) ∧ EOShape u.oq :=
  Iff.rfl

theorem Decoder.inv_iff (u : Decoder) : u.Inv ↔ u.GroupInv ∧ DOShape u.oq := by
  simp only [Decoder.Inv, Decoder.GroupInv, DOShape, and_assoc]

theorem EOShape.nil : EOShape [] := .inl rfl

theorem DOShape.nil : DOShape [] := .inl rfl

/-- The queue without its head has a shape of R30 again. -/
theorem EOShape.tail {h : EOToken} {rest : List EOToken} (hs : EOShape (h :: rest)) : EOShape rest := by
  obtain hq | ⟨a, b, c, hq⟩ | ⟨a, b, hq⟩ | ⟨a, hq⟩ | ⟨a, b, hq⟩ | ⟨a, hq⟩ | hq := hs <;>
    cases hq <;> simp [EOShape]

/-- The queue without its head has a shape of R30 again. -/
theorem DOShape.tail {h : DOToken} {rest : List DOToken} (hs : DOShape (h :: rest)) : DOShape rest := by
  obtain hq | ⟨a, b, hq⟩ | ⟨a, hq⟩ | ⟨a, t, hq, ht⟩ | ⟨t, hq, ht⟩ := hs <;> cases hq <;> simp_all [DOShape]

theorem Encoder.idle_inv : Encoder.idle.Inv := ⟨fun _ => rfl, EOShape.nil⟩

/-- A decoder whose group is empty meets R32 (c) and (d), whatever `D.err` is. -/
theorem Decoder.groupInv_of_empty {u : Decoder} (hc : u.cnt = 0) (ha : u.acc = 0) : u.GroupInv := by
  simp [Decoder.GroupInv, hc, ha]

theorem Decoder.idle_inv : Decoder.idle.Inv :=
  (Decoder.inv_iff _).2 ⟨groupInv_of_empty rfl rfl, .nil⟩

/-- `EPUSH` with the queue empty: a byte is held, or three symbols are queued. -/
theorem Encoder.push_inv (b : Byte) {u : Encoder} (hq : u.oq = []) : (u.push b).Inv := by
  rw [Encoder.inv_iff]
  cases hh : u.have_ <;> simp [Encoder.push, EOShape, encPair, hh, hq]

/-- `EEND` with the queue empty: `EDONE` is queued, after two symbols when a byte was held. -/
theorem Encoder.finish_inv {u : Encoder} (hq : u.oq = []) : u.finish.Inv := by
  rw [Encoder.inv_iff]
  cases hh : u.have_ <;> simp [Encoder.finish, EOShape, encSingle, hh, hq]

theorem Encoder.accept_inv (w : Token) {u : Encoder} (hq : u.oq = []) : (u.accept w).Inv := by
  unfold Encoder.accept
  split
  · exact Encoder.finish_inv hq
  · exact Encoder.push_inv _ hq

/-- `DPUSH` with the queue empty: the bounds of R32 (c) are those of one and of two indices up to 44. -/
theorem Decoder.PushCase.inv {ch : Byte} {u u' : Decoder} (h : Decoder.PushCase ch u u') (hu : u.Inv)
    (hq : u.oq = []) : u'.Inv := by
  have ⟨⟨_, hacc, _, _⟩, _⟩ := (Decoder.inv_iff u).1 hu
  rw [Decoder.inv_iff] at hu ⊢
  cases h with
  | discarded => exact hu
  | raised => exact ⟨groupInv_of_empty rfl rfl, .inl hq⟩
  | first i he _ _ =>
    have hi : i.val % 2 ^ 17 ≤ 44 := (Nat.mod_le _ _).trans (by omega)
    exact ⟨by simpa [Decoder.GroupInv, he] using hi, .inl hq⟩
  | second i he _ hc =>
    have hacc := hacc hc
    have hi : (u.acc.toNat + i.val * 45) % 2 ^ 17 ≤ 2024 := (Nat.mod_le _ _).trans (by omega)
    exact ⟨by simpa [Decoder.GroupInv, he] using hi, .inl hq⟩
  | third => exact ⟨groupInv_of_empty rfl rfl, by simp [DOShape, hq]⟩

/-- `DEND` with the queue empty: a `DDONE` is queued, alone or after the remainder byte. -/
theorem Decoder.FinishCase.inv {u u' : Decoder} (h : Decoder.FinishCase u u') (hq : u.oq = []) : u'.Inv := by
  rw [Decoder.inv_iff]
  cases h <;> exact ⟨groupInv_of_empty rfl rfl, by simp [DOShape, DOToken.isDone, hq]⟩

theorem Decoder.accept_inv (w : Token) {u : Decoder} (hu : u.Inv) (hq : u.oq = []) : (u.accept w).Inv := by
  unfold Decoder.accept
  split
  · exact (Decoder.finish_cases u).inv hq
  · exact (Decoder.push_cases _ u).inv hu hq

/-- Taking the head from the queue keeps the invariant of the encoder. -/
theorem Encoder.handOut_inv {u : Encoder} {h : EOToken} {rest : List EOToken} (hu : u.Inv) (hq : u.oq = h :: rest) :
    Encoder.Inv { u with oq := rest } := by
  obtain ⟨hhold, hshape⟩ := (Encoder.inv_iff u).1 hu
  rw [hq] at hshape
  exact ⟨hhold, hshape.tail⟩

/-- Taking the head from the queue keeps the invariant of the decoder. -/
theorem Decoder.handOut_inv {u : Decoder} {h : DOToken} {rest : List DOToken} (hu : u.Inv) (hq : u.oq = h :: rest) :
    Decoder.Inv { u with oq := rest } := by
  obtain ⟨hgroup, hshape⟩ := (Decoder.inv_iff u).1 hu
  rw [hq] at hshape
  exact (Decoder.inv_iff _).2 ⟨hgroup, hshape.tail⟩

/-- With the pin released the invariant is that of the two units. -/
theorem State.inv_of_released {s : State} (hr : s.rst = false) (he : s.e.Inv) (hd : s.d.Inv) : s.Inv :=
  ⟨he, hd, fun h => by simp [hr] at h⟩

/-- Settles O31, by the cases of a step: `RESET` makes both units idle, and every other step that changes a unit has the
pin released and keeps that unit's invariant. -/
theorem everyStepKeepsTheInvariant : Obligations.EveryStepKeepsTheInvariant := by
  intro s s' hs h
  obtain ⟨he, hd, hidle⟩ := hs
  cases step_cases h with
  | noTurn | notEnabled => exact ⟨he, hd, hidle⟩
  | assertReset => exact ⟨Encoder.idle_inv, Decoder.idle_inv, fun _ => ⟨rfl, rfl⟩⟩
  | releaseReset => exact State.inv_of_released rfl he hd
  | encAccept _ w _ _ _ hr hq => exact State.inv_of_released hr (Encoder.accept_inv w hq) hd
  | decAccept _ w _ _ _ hr hq => exact State.inv_of_released hr he (Decoder.accept_inv w hd hq)
  | encEmit _ _ _ _ hr hq => exact State.inv_of_released hr (Encoder.handOut_inv he hq) hd
  | decEmit _ _ _ _ hr hq => exact State.inv_of_released hr he (Decoder.handOut_inv hd hq)

/-- Settles O13. -/
theorem resetStateIsIdle : Obligations.ResetStateIsIdle :=
  ⟨rfl, rfl, rfl, rfl, rfl, rfl, rfl, rfl⟩

/-- The invariant at the beginning of a run, whatever is offered and whatever turns are to come. -/
theorem State.start_inv (ei di : List Token) (sched : List Turn) : (State.start ei di sched).Inv :=
  State.inv_of_released rfl Encoder.idle_inv Decoder.idle_inv

/-- Settles O30: reset is the beginning of a run with nothing offered. -/
theorem invariantHoldsAtReset : Obligations.InvariantHoldsAtReset :=
  State.start_inv [] [] []

/-- With nothing accepted or sent, the encoder's streams and registers are those of the empty message. -/
theorem State.start_encoderTracks (ei di : List Token) (sched : List Turn) :
    (State.start ei di sched).EncoderTracks :=
  ⟨rfl, rfl, rfl⟩

/-- With nothing accepted or sent, the decoder's streams and registers are those of the empty message. -/
theorem State.start_decoderTracks (ei di : List Token) (sched : List Turn) :
    (State.start ei di sched).DecoderTracks :=
  ⟨rfl, rfl, rfl, rfl⟩

/-- Settles O47. -/
theorem runsBeginOnTrack : Obligations.RunsBeginOnTrack := fun ei di sched =>
  ⟨State.start_inv ei di sched, State.start_encoderTracks ei di sched, State.start_decoderTracks ei di sched⟩

end Sys2Proof.Machine
end

section
/-! PROOF. The error flag over one step (10_state.md R26, 60_exceptions.md R153, R156, R159). -/

namespace Sys2Proof.Machine

/-- The pin `dec_err` is `D.err` (R156). -/
@[simp] theorem State.pins_decErr (s : State) : s.pins.decErr = s.d.err := rfl

/-- `DPUSH` raises `D.err` only for a character that is not found or a triple above 65535, and then clears the group
and queues nothing (R153). -/
theorem Decoder.PushCase.err_rises {ch : Byte} {u u' : Decoder} (h : Decoder.PushCase ch u u') (he : u.err = false)
    (he' : u'.err = true) :
    (indexOf ch = none ∨
      (u.cnt = 2 ∧ ∃ i : Index, indexOf ch = some i ∧ 65535 < u.acc.toNat + i.val * 2025)) ∧
    u'.acc = 0 ∧ u'.cnt = 0 ∧ u'.oq = u.oq := by
  cases h with
  | raised _ why => exact ⟨why, rfl, rfl, rfl⟩
  | discarded | first | second | third => simp [he] at he'

/-- `DEND` of a failed message queues `DDONE ERR` and nothing else (R118). -/
theorem Decoder.FinishCase.oq_of_err {u u' : Decoder} (h : Decoder.FinishCase u u') (he : u.err = true) :
    u'.oq = u.oq ++ [.ddoneErr] := by
  cases h with
  | failed => rfl
  | complete he' | remainder he' => simp [he] at he'

/-- Accepting a word raises `D.err` only when the word is a `DPUSH` that raises. -/
theorem Decoder.accept_err_rises {w : Token} {u : Decoder} (he' : (u.accept w).err = true) :
    tokKind w = false ∧ (u.push (tokData w)).err = true ∧ u.accept w = u.push (tokData w) := by
  cases hw : tokKind w with
  | true =>
    rw [Decoder.accept_end hw, Decoder.finish_eq] at he'
    cases he'
  | false =>
    rw [Decoder.accept_data hw] at he'
    exact ⟨rfl, he', Decoder.accept_data hw u⟩

/-- Accepting a word clears `D.err` only when the word is an END: a failed message discards its characters. -/
theorem Decoder.accept_err_falls {w : Token} {u : Decoder} (he : u.err = true) (he' : (u.accept w).err = false) :
    tokKind w = true ∧ u.accept w = u.finish := by
  cases hw : tokKind w with
  | true => exact ⟨rfl, Decoder.accept_end hw u⟩
  | false => simp [Decoder.accept_data hw, Decoder.push_discarded he, he] at he'

/-- Settles O33, by the cases of a step: only `RESET` and a decoder `ACCEPT` can change `D.err`. -/
theorem errorFlagRisesAndFallsByTheRule : Obligations.ErrorFlagRisesAndFallsByTheRule := by
  intro s s' h
  simp only [State.pins_decErr]
  cases step_cases h with
  | noTurn | releaseReset | notEnabled | encAccept | encEmit | decEmit =>
    exact ⟨fun he he' => by simp [he] at he', fun he he' => by simp [he] at he'⟩
  | assertReset turns hs => exact ⟨fun _ he' => by simp at he', fun _ _ => .inl ⟨turns, hs⟩⟩
  | decAccept turns w rest hs hi _ hq =>
    constructor
    · intro he he'
      obtain ⟨hw, hpush, haccept⟩ := Decoder.accept_err_rises he'
      obtain ⟨why, hacc, hcnt, hoq⟩ := (Decoder.push_cases (tokData w) s.d).err_rises he hpush
      simp only [haccept]
      exact ⟨turns, w, rest, hs, hi, hw, why, hacc, hcnt, hoq.trans hq⟩
    · intro he he'
      obtain ⟨hw, haccept⟩ := Decoder.accept_err_falls he he'
      have hoq := (Decoder.finish_cases s.d).oq_of_err he
      rw [hq] at hoq
      simp only [haccept]
      exact .inr ⟨turns, w, rest, hs, hi, hw, hoq⟩

end Sys2Proof.Machine
end

section
/-! PROOF. The two tables agree (20_memory.md R43, 40_alphabet.md R84, R87), and no input word is lost on its way
through a port (20_memory.md R44, 70_reset_and_hazards.md R176, R178). -/

namespace Sys2Proof.Machine

/-- The table and the scan are compared entry by entry (R43). -/
theorem indexOf_eq_scanIndexOf : ∀ ch : Byte, indexOf ch = scanIndexOf ch := by
  decide

/-- The fill of the entries that are not found (R84). -/
theorem idxrom_of_indexOf_none : ∀ ch : Byte, indexOf ch = none → idxrom ch = 0#7 := by
  decide

/-- Settles O8. -/
theorem inverseTableAgreesWithScan : Obligations.InverseTableAgreesWithScan := fun ch =>
  ⟨indexOf_eq_scanIndexOf ch, idxrom_of_indexOf_none ch⟩

/-- Settles O35, by the cases of a step: an enabled `ACCEPT` moves the head of its producer's offer to the end of the
open trace, `RESET` moves the open trace to the end of the past ones, and no other turn touches an input stream. -/
theorem noInputTokenIsLostOrDuplicated : Obligations.NoInputTokenIsLostOrDuplicated := by
  intro s s' h
  cases step_cases h with
  | noTurn | releaseReset | notEnabled | encEmit | decEmit => exact ⟨rfl, rfl⟩
  | assertReset => simp [State.allEI, State.allDI]
  | encAccept _ w rest _ hi => exact ⟨by simp [State.allEI, hi], rfl⟩
  | decAccept _ w rest _ hi => exact ⟨rfl, by simp [State.allDI, hi]⟩

end Sys2Proof.Machine
end

section
/-! PROOF. Every step keeps the encoder's output the answer to its input (41_encoder.md R95, R96, R101; 10_state.md R22,
R54). -/

namespace Sys2Proof.Machine

/-- A message is whole pairs, or whole pairs and an odd byte. -/
theorem even_or_append_odd (m : List Byte) :
    m.length % 2 = 0 ∨ ∃ (p : List Byte) (b : Byte), p.length % 2 = 0 ∧ m = p ++ [b] := by
  obtain rfl | ⟨p, b, rfl⟩ := m.eq_nil_or_concat'
  · exact .inl rfl
  · have hlen : (p ++ [b]).length = p.length + 1 := List.length_append
    obtain hp | hp := Nat.mod_two_eq_zero_or_one p.length
    · exact .inr ⟨p, b, hp, rfl⟩
    · exact .inl (by omega)

/-- The words of symbols on `EO` (R62). -/
def symbolWords (ys : List Symbol) : List Token :=
  ys.map (fun y => encode (.esym y.code))

@[simp] theorem symbolWords_nil : symbolWords [] = [] := rfl

@[simp] theorem symbolWords_append (ys zs : List Symbol) :
    symbolWords (ys ++ zs) = symbolWords ys ++ symbolWords zs :=
  List.map_append

@[simp] theorem map_word_comp_esym (ys : List Symbol) : ys.map (EOToken.word ∘ EOToken.esym) = symbolWords ys := rfl

theorem encoderAnswer_eq (m : List Byte) :
    encoderAnswer m = symbolWords (encodeSymbols m) ++ [EOToken.edone.word] := by
  simp [encoderAnswer, encodeText, symbolWords, EOToken.word, EOToken.instr]

section WholePairs
variable {p : List Byte} (hp : p.length % 2 = 0)
include hp

theorem encodePairs_append (rest : List Byte) : encodePairs (p ++ rest) = encodePairs p ++ encodePairs rest := by
  induction p using encodePairs.induct with
  | case1 => rfl
  | case2 => cases hp
  | case3 b0 b1 p ih =>
    have hp' : p.length % 2 = 0 := by simpa [Nat.add_assoc] using hp
    simp [encodePairs, ih hp']

theorem encodeSymbols_append (rest : List Byte) :
    encodeSymbols (p ++ rest) = encodePairs p ++ encodeSymbols rest := by
  induction p using encodePairs.induct with
  | case1 => rfl
  | case2 => cases hp
  | case3 b0 b1 p ih =>
    have hp' : p.length % 2 = 0 := by simpa [Nat.add_assoc] using hp
    simp [encodePairs, encodeSymbols, ih hp']

end WholePairs

section EncoderEquations
variable {u : Encoder}

theorem Encoder.push_first (b : Byte) (hh : u.have_ = false) : u.push b = { u with hold := b, have_ := true } := by
  simp [Encoder.push, hh]

theorem Encoder.push_second (b : Byte) (hh : u.have_ = true) :
    u.push b = { hold := 0, have_ := false, oq := u.oq ++ (encPair u.hold b).map EOToken.esym } :=
  if_pos hh

theorem Encoder.finish_empty (hh : u.have_ = false) :
    u.finish = { hold := 0, have_ := false, oq := u.oq ++ [.edone] } := by
  simp [Encoder.finish, hh, Encoder.emit, Encoder.clearGroup]

theorem Encoder.finish_held (hh : u.have_ = true) :
    u.finish = { hold := 0, have_ := false, oq := u.oq ++ ((encSingle u.hold).map EOToken.esym ++ [.edone]) } := by
  simp [Encoder.finish, hh, Encoder.emit, Encoder.clearGroup]

/-- An END word is `EEND`. -/
theorem Encoder.accept_end {w : Token} (hw : tokKind w = true) (u : Encoder) : u.accept w = u.finish :=
  if_pos hw

/-- A data word is `EPUSH` of its data. -/
theorem Encoder.accept_data {w : Token} (hw : tokKind w = false) (u : Encoder) : u.accept w = u.push (tokData w) := by
  simp [Encoder.accept, hw]

end EncoderEquations

/-- The encoder's registers hold the odd byte of the open message `m`, if there is one (R22). -/
def Encoder.Holds (u : Encoder) (m : List Byte) : Prop :=
  u.have_ = decide (m.length % 2 = 1) ∧ u.hold = (if m.length % 2 = 1 then m.getLastD 0 else 0)

theorem Encoder.holds_even (u : Encoder) {p : List Byte} (hp : p.length % 2 = 0) :
    u.Holds p ↔ u.have_ = false ∧ u.hold = 0 := by
  simp [Encoder.Holds, hp]

theorem Encoder.holds_odd (u : Encoder) {p : List Byte} (hp : p.length % 2 = 0) (b : Byte) :
    u.Holds (p ++ [b]) ↔ u.have_ = true ∧ u.hold = b := by
  have hodd : (p.length + 1) % 2 = 1 := by omega
  simp [Encoder.Holds, hodd]

/-- `EPUSH` with the queue empty holds the byte, or queues the symbols of the pair it completes (R95). -/
theorem Encoder.push_holds (b : Byte) {u : Encoder} {m : List Byte} (hu : u.Holds m) (hq : u.oq = []) :
    (u.push b).Holds (m ++ [b]) ∧
      symbolWords (encodePairs (m ++ [b])) = symbolWords (encodePairs m) ++ (u.push b).oq.map EOToken.word := by
  obtain hm | ⟨p, b0, hp, rfl⟩ := even_or_append_odd m
  · obtain ⟨hhave, -⟩ := (u.holds_even hm).1 hu
    rw [Encoder.push_first b hhave, Encoder.holds_odd _ hm, encodePairs_append hm]
    simp [encodePairs, hq]
  · obtain ⟨hhave, rfl⟩ := (u.holds_odd hp b0).1 hu
    have hpair : (p ++ [u.hold] ++ [b]).length % 2 = 0 := by simp [hp]
    rw [Encoder.push_second b hhave, Encoder.holds_even _ hpair, List.append_assoc, encodePairs_append hp,
      encodePairs_append hp]
    simp [encodePairs, hq]

/-- `EEND` with the queue empty completes the answer to the message (R96). -/
theorem Encoder.finish_answers {u : Encoder} {m : List Byte} (hu : u.Holds m) (hq : u.oq = []) :
    u.finish.Holds [] ∧ encoderAnswer m = symbolWords (encodePairs m) ++ u.finish.oq.map EOToken.word := by
  refine ⟨⟨rfl, rfl⟩, ?_⟩
  rw [encoderAnswer_eq]
  obtain hm | ⟨p, b, hp, rfl⟩ := even_or_append_odd m
  · obtain ⟨hhave, -⟩ := (u.holds_even hm).1 hu
    have hwhole : encodeSymbols m = encodePairs m := by simpa [encodeSymbols] using encodeSymbols_append hm []
    simp [Encoder.finish_empty hhave, hwhole, hq]
  · obtain ⟨hhave, rfl⟩ := (u.holds_odd hp b).1 hu
    rw [Encoder.finish_held hhave, encodeSymbols_append hp, encodePairs_append hp]
    simp [encodePairs, encodeSymbols, hq]

/-- `State.EncoderTracks` for an encoder that has accepted the words `ei` and sent the words `eo`. -/
def Encoder.Tracks (u : Encoder) (ei eo : List Token) : Prop :=
  eo ++ u.oq.map EOToken.word =
    (messages ei).flatMap encoderAnswer ++ symbolWords (encodePairs (openMessage ei)) ∧
  u.Holds (openMessage ei)

theorem State.encoderTracks_iff (s : State) : s.EncoderTracks ↔ s.e.Tracks s.trace.ei s.trace.eo :=
  Iff.rfl

theorem Encoder.accept_tracks (w : Token) {u : Encoder} {ei eo : List Token} (hu : u.Tracks ei eo) (hq : u.oq = []) :
    (u.accept w).Tracks (ei ++ [w]) eo := by
  obtain ⟨hout, hhold⟩ := hu
  rw [hq, List.map_nil, List.append_nil] at hout
  cases hw : tokKind w with
  | true =>
    obtain ⟨hmsg, hopen⟩ := cut_append_end ei w hw
    obtain ⟨hhold', hanswer⟩ := Encoder.finish_answers hhold hq
    rw [Encoder.accept_end hw, Encoder.Tracks, hmsg, hopen, hout]
    exact ⟨by simp [hanswer, encodePairs], hhold'⟩
  | false =>
    obtain ⟨hmsg, hopen⟩ := cut_append_data ei w hw
    obtain ⟨hhold', hsyms⟩ := Encoder.push_holds (tokData w) hhold hq
    rw [Encoder.accept_data hw, Encoder.Tracks, hmsg, hopen, hout, hsyms]
    exact ⟨List.append_assoc _ _ _, hhold'⟩

/-- Handing out the head of the queue moves one word from the queue to the stream (R97). -/
theorem Encoder.handOut_tracks {u : Encoder} {ei eo : List Token} {h : EOToken} {rest : List EOToken}
    (hu : u.Tracks ei eo) (hq : u.oq = h :: rest) : Encoder.Tracks { u with oq := rest } ei (eo ++ [h.word]) := by
  obtain ⟨hout, hhold⟩ := hu
  rw [hq] at hout
  exact ⟨by simpa using hout, hhold⟩

/-- Settles O48, by the cases of a step: `RESET` begins an empty history with an idle encoder, an `ACCEPT` finds the
queue empty, and no other turn but the encoder's `EMIT` touches the encoder or its streams. -/
theorem everyStepKeepsTheEncoderOnTrack : Obligations.EveryStepKeepsTheEncoderOnTrack := by
  intro s s' hs h
  rw [State.encoderTracks_iff] at hs ⊢
  cases step_cases h with
  | noTurn | releaseReset | notEnabled | decAccept | decEmit => exact hs
  | assertReset => exact ⟨rfl, rfl, rfl⟩
  | encAccept _ w _ _ _ _ hq => exact Encoder.accept_tracks w hs hq
  | encEmit _ _ _ _ _ hq => exact Encoder.handOut_tracks hs hq

end Sys2Proof.Machine
end

section
/-! PROOF. Every step keeps the decoder's output the answer to its input (42_decoder.md R117, R118, R122; 10_state.md
R23, R25, R54). -/

namespace Sys2Proof.Machine

/-! ## The group functions as inequalities (R113, R114) -/

section GroupFunctions
variable {c d e : Index}

theorem decTriple_over (hv : 65535 < c.val + d.val * 45 + e.val * 2025) : decTriple c d e = none :=
  if_pos ((overTriple_eq_true _).2 hv)

theorem decTriple_inRange (hv : c.val + d.val * 45 + e.val * 2025 ≤ 65535) :
    decTriple c d e =
      some [byteHi (c.val + d.val * 45 + e.val * 2025), byteLo (c.val + d.val * 45 + e.val * 2025)] :=
  if_neg (mt (overTriple_eq_true _).1 (Nat.not_lt.2 hv))

theorem decPair_over (hv : 255 < c.val + d.val * 45) : decPair c d = none :=
  if_pos ((overPair_eq_true _).2 hv)

theorem decPair_inRange (hv : c.val + d.val * 45 ≤ 255) : decPair c d = some [byteLo (c.val + d.val * 45)] :=
  if_neg (mt (overPair_eq_true _).1 (Nat.not_lt.2 hv))

end GroupFunctions

/-! ## One more character of a scan -/

/-- The bytes that one more character sends out when the incomplete group is `r`, and the group after it; `none` is a
failed message, or a character that is not found (R117). -/
def scanNext : Option (List Index) → Option Index → List Byte × Option (List Index)
  | none, _ | some _, none => ([], none)
  | some [], some i => ([], some [i])
  | some [c], some i => ([], some [c, i])
  | some (c :: d :: _), some i =>
    match decTriple c d i with
    | some bytes => (bytes, some [])
    | none => ([], none)

theorem decodeScan_append_singleton (text : List Byte) (ch : Byte) :
    decodeScan (text ++ [ch]) =
      ((decodeScan text).1 ++ (scanNext (decodeScan text).2 (indexOf ch)).1,
        (scanNext (decodeScan text).2 (indexOf ch)).2) := by
  induction text using decodeScan.induct with
  | case1 | case2 | case3 | case6 | case7 | case8 => cases hi : indexOf ch <;> simp [decodeScan, scanNext, *]
  | case4 a b c d hb ha =>
    cases hi : indexOf ch with
    | none => simp [decodeScan, scanNext, ha, hb, hi]
    | some i => cases ht : decTriple c d i <;> simp [decodeScan, scanNext, ha, hb, hi, ht]
  | case5 a b hab =>
    have hfail : decodeScan [a, b, ch] = ([], none) := by
      unfold decodeScan
      split
      · next c d _ ha hb _ => exact (hab c d ha hb).elim
      · rfl
    simp [decodeScan, scanNext, hfail]

/-- `DEND` sends its bytes after those of the scan and decides the status by the group alone. -/
theorem closeScan_eq (sent : List Byte) (r : Option (List Index)) :
    closeScan sent r = (sent ++ (closeScan [] r).1, (closeScan [] r).2) := by
  match r with
  | none | some [] | some [_] => simp [closeScan]
  | some (c :: d :: _) => cases hp : decPair c d <;> simp [closeScan, hp]

/-- The words of bytes on `DO` (R64). -/
def byteWords (bs : List Byte) : List Token :=
  bs.map (fun b => encode (.dbyte b))

@[simp] theorem byteWords_nil : byteWords [] = [] := rfl

@[simp] theorem byteWords_append (bs cs : List Byte) : byteWords (bs ++ cs) = byteWords bs ++ byteWords cs :=
  List.map_append

@[simp] theorem map_word_comp_dbyte (bs : List Byte) : bs.map (DOToken.word ∘ DOToken.dbyte) = byteWords bs := rfl

/-- The token that closes a segment of the given status (R64). -/
def doneToken (ok : Bool) : DOToken :=
  if ok then .ddoneOk else .ddoneErr

theorem decoderAnswer_eq (text : List Byte) :
    decoderAnswer text = byteWords (decodeScan text).1 ++
      (byteWords (closeScan [] (decodeScan text).2).1 ++ [(doneToken (closeScan [] (decodeScan text).2).2).word]) := by
  have hdone (ok : Bool) : (if ok then encode .ddoneOk else encode .ddoneErr) = (doneToken ok).word := by
    cases ok <;> rfl
  rw [decoderAnswer, decodeAnswer, closeScan_eq, hdone, ← List.append_assoc, ← byteWords_append]
  rfl

section DecoderCloseEquations
variable {u : Decoder}

theorem Decoder.close_failed (he : u.err = true) : u.close = u.emit [.ddoneErr] :=
  if_pos he

theorem Decoder.close_complete (he : u.err = false) (hc : u.cnt = 0) : u.close = u.emit [.ddoneOk] := by
  simp [Decoder.close, he, hc]

theorem Decoder.close_single (he : u.err = false) (hc : u.cnt = 1) : u.close = u.emit [.ddoneErr] := by
  simp [Decoder.close, he, hc, Decoder.raise, Decoder.emit, errAfterRaise]

theorem Decoder.close_over (he : u.err = false) (hc : u.cnt = 2) (hv : 255 < u.acc.toNat) :
    u.close = u.emit [.ddoneErr] := by
  simp [Decoder.close, he, hc, hv, Decoder.raise, Decoder.emit, errAfterRaise]

theorem Decoder.close_remainder (he : u.err = false) (hc : u.cnt = 2) (hv : u.acc.toNat ≤ 255) :
    u.close = u.emit [.dbyte (byteLo u.acc.toNat), .ddoneOk] := by
  simp [Decoder.close, he, hc, Nat.not_lt.2 hv]

end DecoderCloseEquations

/-- The decoder's registers hold the incomplete group `r` of the open message, or its failure (R23, R25, R153). -/
def Decoder.Holds (u : Decoder) (r : Option (List Index)) : Prop :=
  match r with
  | none => u.err = true ∧ u.cnt = 0 ∧ u.acc = 0
  | some g => u.err = false ∧ u.cnt.val = g.length ∧ u.acc = BitVec.ofNat 17 (groupValue g)

/-- The groups that three values of `D.cnt` can hold, each with its registers; the value fits 17 bits (R112). -/
theorem Decoder.holds_cases {u : Decoder} {r : Option (List Index)} (h : u.Holds r) :
    (r = none ∧ u.err = true) ∨
      (r = some [] ∧ u.err = false ∧ u.cnt = 0) ∨
      (∃ c : Index, r = some [c] ∧ u.err = false ∧ u.cnt = 1 ∧ u.acc.toNat = c.val) ∨
      (∃ c d : Index, r = some [c, d] ∧ u.err = false ∧ u.cnt = 2 ∧ u.acc.toNat = c.val + d.val * 45) := by
  match r, h with
  | none, ⟨he, _⟩ => exact .inl ⟨rfl, he⟩
  | some [], ⟨he, hc, _⟩ => exact .inr (.inl ⟨rfl, he, Fin.ext hc⟩)
  | some [c], ⟨he, hc, ha⟩ =>
    have hv : u.acc.toNat = c.val := by simp only [ha, groupValue, BitVec.toNat_ofNat]; omega
    exact .inr (.inr (.inl ⟨c, rfl, he, Fin.ext hc, hv⟩))
  | some [c, d], ⟨he, hc, ha⟩ =>
    have hv : u.acc.toNat = c.val + d.val * 45 := by
      simp only [ha, groupValue, pairValue, BitVec.toNat_ofNat, Config.radix_eq]; omega
    exact .inr (.inr (.inr ⟨c, d, rfl, he, Fin.ext hc, hv⟩))
  | some (_ :: _ :: _ :: g), ⟨_, hc, _⟩ =>
    have hlt := u.cnt.isLt
    simp only [List.length_cons] at hc
    omega

/-- A character that is not found fails the message and queues nothing (R117, R153). -/
theorem Decoder.push_notFound_holds {ch : Byte} {u : Decoder} (he : u.err = false) (hi : indexOf ch = none)
    (hq : u.oq = []) : (u.push ch).Holds none ∧ (u.push ch).oq = [] := by
  rw [Decoder.push_notFound he hi]
  exact ⟨⟨rfl, rfl, rfl⟩, hq⟩

/-- `DPUSH` with the queue empty queues the bytes of the triple it completes, if any, and holds the group that is then
incomplete (R117). -/
theorem Decoder.push_holds (ch : Byte) {u : Decoder} {r : Option (List Index)} (hu : u.Holds r) (hq : u.oq = []) :
    (u.push ch).Holds (scanNext r (indexOf ch)).2 ∧
      (u.push ch).oq = (scanNext r (indexOf ch)).1.map DOToken.dbyte := by
  obtain ⟨rfl, he⟩ | ⟨rfl, he, hc⟩ | ⟨c, rfl, he, hc, ha⟩ | ⟨c, d, rfl, he, hc, ha⟩ := Decoder.holds_cases hu
  · rw [Decoder.push_discarded he]
    exact ⟨hu, hq⟩
  · cases hi : indexOf ch with
    | none => exact Decoder.push_notFound_holds he hi hq
    | some i =>
      rw [Decoder.push_found he hi, Decoder.fold_first hc]
      exact ⟨⟨he, rfl, rfl⟩, hq⟩
  · cases hi : indexOf ch with
    | none => exact Decoder.push_notFound_holds he hi hq
    | some i =>
      rw [Decoder.push_found he hi, Decoder.fold_second hc, ha]
      exact ⟨⟨he, rfl, rfl⟩, hq⟩
  · cases hi : indexOf ch with
    | none => exact Decoder.push_notFound_holds he hi hq
    | some i =>
      rw [Decoder.push_found he hi, Decoder.fold_third hc, ha]
      obtain hv | hv := le_or_gt (c.val + d.val * 45 + i.val * 2025) 65535
      · simp [Decoder.complete_inRange hv, scanNext, decTriple_inRange hv, hq, Decoder.Holds, he, groupValue]
      · simp [Decoder.complete_over hv, scanNext, decTriple_over hv, hq, Decoder.Holds]

/-- `DEND` with the queue empty queues what closes the scan and the status (R118). -/
theorem Decoder.finish_oq {u : Decoder} {r : Option (List Index)} (hu : u.Holds r) (hq : u.oq = []) :
    u.finish.oq = (closeScan [] r).1.map DOToken.dbyte ++ [doneToken (closeScan [] r).2] := by
  rw [Decoder.finish_eq]
  obtain ⟨rfl, he⟩ | ⟨rfl, he, hc⟩ | ⟨c, rfl, he, hc, -⟩ | ⟨c, d, rfl, he, hc, ha⟩ := Decoder.holds_cases hu
  · simp [Decoder.close_failed he, closeScan, doneToken, hq]
  · simp [Decoder.close_complete he hc, closeScan, doneToken, hq]
  · simp [Decoder.close_single he hc, closeScan, doneToken, hq]
  · obtain hv | hv := le_or_gt (c.val + d.val * 45) 255
    · simp [Decoder.close_remainder he hc (ha.trans_le hv), closeScan, decPair_inRange hv, doneToken, ha, hq]
    · simp [Decoder.close_over he hc (hv.trans_eq ha.symm), closeScan, decPair_over hv, doneToken, hq]

theorem Decoder.finish_holds (u : Decoder) : u.finish.Holds (some []) :=
  ⟨rfl, rfl, rfl⟩

/-! ## The decoder on track -/

/-- `State.DecoderTracks` for a decoder that has accepted the words `di` and sent the words `dO`. -/
def Decoder.Tracks (u : Decoder) (di dO : List Token) : Prop :=
  dO ++ u.oq.map DOToken.word =
    (messages di).flatMap decoderAnswer ++ byteWords (decodeScan (openMessage di)).1 ∧
  u.Holds (decodeScan (openMessage di)).2

theorem State.decoderTracks_iff (s : State) : s.DecoderTracks ↔ s.d.Tracks s.trace.di s.trace.dO :=
  Iff.rfl

theorem Decoder.accept_tracks (w : Token) {u : Decoder} {di dO : List Token} (hu : u.Tracks di dO) (hq : u.oq = []) :
    (u.accept w).Tracks (di ++ [w]) dO := by
  obtain ⟨hout, hhold⟩ := hu
  rw [hq, List.map_nil, List.append_nil] at hout
  cases hw : tokKind w with
  | true =>
    obtain ⟨hmsg, hopen⟩ := cut_append_end di w hw
    rw [Decoder.accept_end hw, Decoder.Tracks, hmsg, hopen, hout, Decoder.finish_oq hhold hq]
    exact ⟨by simp [decoderAnswer_eq, decodeScan], u.finish_holds⟩
  | false =>
    obtain ⟨hmsg, hopen⟩ := cut_append_data di w hw
    obtain ⟨hhold', hoq⟩ := Decoder.push_holds (tokData w) hhold hq
    rw [Decoder.accept_data hw, Decoder.Tracks, hmsg, hopen, hout, hoq, decodeScan_append_singleton]
    exact ⟨by simp, hhold'⟩

/-- Handing out the head of the queue moves one word from the queue to the stream (R119). -/
theorem Decoder.handOut_tracks {u : Decoder} {di dO : List Token} {h : DOToken} {rest : List DOToken}
    (hu : u.Tracks di dO) (hq : u.oq = h :: rest) : Decoder.Tracks { u with oq := rest } di (dO ++ [h.word]) := by
  obtain ⟨hout, hhold⟩ := hu
  rw [hq] at hout
  exact ⟨by simpa using hout, hhold⟩

/-- Settles O49, by the cases of a step: `RESET` begins an empty history with an idle decoder, an `ACCEPT` finds the
queue empty, and no other turn but the decoder's `EMIT` touches the decoder or its streams. -/
theorem everyStepKeepsTheDecoderOnTrack : Obligations.EveryStepKeepsTheDecoderOnTrack := by
  intro s s' hs h
  rw [State.decoderTracks_iff] at hs ⊢
  cases step_cases h with
  | noTurn | releaseReset | notEnabled | encAccept | encEmit => exact hs
  | assertReset => exact ⟨rfl, rfl, rfl, rfl⟩
  | decAccept _ w _ _ _ _ hq => exact Decoder.accept_tracks w hs hq
  | decEmit _ _ _ _ _ hq => exact Decoder.handOut_tracks hs hq

end Sys2Proof.Machine
end

section
/-! PROOF. Decoding and encoding are inverse, but for the other words of an END (30_encoding.md R60 to R67). A word is
its two fields (`Laws.mkToken_fields`), so each port's decoder is described by equations on `mkToken`. -/

namespace Sys2Proof.Machine

/-- A code is accepted as a symbol exactly when it stands in `SYMROM` (R43, R62). -/
theorem isSymbolCode_iff (ch : Byte) : isSymbolCode ch = true ↔ ∃ i : Index, (symbolOf i).code = ch := by
  simp [isSymbolCode, indexOf_eq_scanIndexOf, scanIndexOf, symbolOf]

/-- Every word is built from a `KIND` and a `DATA` (R60). -/
theorem token_cases (t : Token) : ∃ k d, t = mkToken k d :=
  ⟨tokKind t, tokData t, (Laws.mkToken_fields t).symm⟩

/-- Bit 8 of a word built from its fields (R60). -/
@[simp] theorem mkToken_bit8 (k : Bool) (d : Byte) : (mkToken k d)[8] = k :=
  Laws.tokKind_mkToken k d

/-- Bits 7:0 of a word built from its fields (R60). -/
@[simp] theorem mkToken_bits7to0 (k : Bool) (d : Byte) : (mkToken k d).extractLsb' 0 8 = d :=
  Laws.tokData_mkToken k d

/-- Words are equal exactly when their fields are. -/
@[simp] theorem mkToken_inj {k k' : Bool} {d d' : Byte} : mkToken k d = mkToken k' d' ↔ k = k' ∧ d = d' := by
  refine ⟨fun h => ⟨?_, ?_⟩, fun ⟨hk, hd⟩ => by rw [hk, hd]⟩
  · simpa using congrArg tokKind h
  · simpa using congrArg tokData h

/-- The canonical word of an END, of `EDONE` and of `DDONE OK` (R61 to R64). -/
theorem word_0x100 : 0x100#9 = mkToken true 0x00#8 := rfl

/-- The word of `DDONE ERR` (R64). -/
theorem word_0x101 : 0x101#9 = mkToken true 0x01#8 := rfl

section PortDecoders
variable {d : Byte}

theorem decodeEI_end : decodeEI (mkToken true d) = .eend := by simp [decodeEI]

theorem decodeEI_data : decodeEI (mkToken false d) = .epush d := by simp [decodeEI]

theorem decodeDI_end : decodeDI (mkToken true d) = .dend := by simp [decodeDI]

theorem decodeDI_data : decodeDI (mkToken false d) = .dpush d := by simp [decodeDI]

theorem decodeEO_symbol (hd : isSymbolCode d = true) : decodeEO (mkToken false d) = .ok (.esym d) := by
  simp [decodeEO, hd]

theorem decodeEO_foreign (hd : ¬ isSymbolCode d = true) : decodeEO (mkToken false d) = .error (.esymNoSymbol d) := by
  simp [decodeEO, hd]

theorem decodeEO_done : decodeEO (mkToken true 0x00#8) = .ok .edone := rfl

theorem decodeEO_doneData (hd : d ≠ 0x00#8) : decodeEO (mkToken true d) = .error (.edoneData d) := by
  simpa [decodeEO] using hd

theorem decodeDO_data : decodeDO (mkToken false d) = .ok (.dbyte d) := by simp [decodeDO]

theorem decodeDO_ok : decodeDO (mkToken true 0x00#8) = .ok .ddoneOk := rfl

theorem decodeDO_err : decodeDO (mkToken true 0x01#8) = .ok .ddoneErr := rfl

theorem decodeDO_doneData (h0 : d ≠ 0x00#8) (h1 : d ≠ 0x01#8) : decodeDO (mkToken true d) = .error (.ddoneData d) := by
  simpa [decodeDO, h0] using h1

end PortDecoders

/-- Settles O1, row by row: the word of a row is a `mkToken`, and the equation of its port's decoder reads it back; an
`ESYM` is well formed exactly when that equation applies. -/
theorem decodeReadsBackEveryEncodedToken : Obligations.DecodeReadsBackEveryEncodedToken := by
  intro i hi
  cases i with
  | epush b => exact congrArg _ decodeEI_data
  | eend => exact congrArg _ decodeEI_end
  | dpush ch => exact congrArg _ decodeDI_data
  | dend => exact congrArg _ decodeDI_end
  | esym ch => exact decodeEO_symbol hi
  | edone => exact decodeEO_done
  | dbyte b => exact decodeDO_data
  | ddoneOk => exact decodeDO_ok
  | ddoneErr => exact decodeDO_err

/-- A word that `EO` accepts is the word of a well-formed token of `EO` (R62). -/
theorem decodeEO_eq_ok {t : Token} {i : Instr} (h : decodeEO t = .ok i) :
    i.wf = true ∧ i.port = .eo ∧ encode i = t := by
  obtain ⟨k, d, rfl⟩ := token_cases t
  cases k with
  | false =>
    by_cases hd : isSymbolCode d = true
    · cases (decodeEO_symbol hd).symm.trans h
      exact ⟨hd, rfl, rfl⟩
    · cases (decodeEO_foreign hd).symm.trans h
  | true =>
    by_cases hd : d = 0x00#8
    · subst hd
      cases decodeEO_done.symm.trans h
      exact ⟨rfl, rfl, rfl⟩
    · cases (decodeEO_doneData hd).symm.trans h

/-- A word that `DO` accepts is the word of a well-formed token of `DO` (R64). -/
theorem decodeDO_eq_ok {t : Token} {i : Instr} (h : decodeDO t = .ok i) :
    i.wf = true ∧ i.port = .dO ∧ encode i = t := by
  obtain ⟨k, d, rfl⟩ := token_cases t
  cases k with
  | false =>
    cases decodeDO_data.symm.trans h
    exact ⟨rfl, rfl, rfl⟩
  | true =>
    by_cases h0 : d = 0x00#8
    · subst h0
      cases decodeDO_ok.symm.trans h
      exact ⟨rfl, rfl, rfl⟩
    by_cases h1 : d = 0x01#8
    · subst h1
      cases decodeDO_err.symm.trans h
      exact ⟨rfl, rfl, rfl⟩
    · cases (decodeDO_doneData h0 h1).symm.trans h

/-- Settles O2: an output port accepts only the words of its tokens; on an input port a data word is that of its
`EPUSH` or `DPUSH`, and an END word, whatever its `DATA`, becomes the one END token. -/
theorem encodeWritesBackEveryDecodedWord : Obligations.EncodeWritesBackEveryDecodedWord := by
  intro p t i h
  cases p with
  | ei =>
    cases h
    obtain ⟨k, d, rfl⟩ := token_cases t
    cases k with
    | false => simp [decodeEI_data, Instr.wf, Instr.port, encode]
    | true => simp [decodeEI_end, Instr.wf, Instr.port, encode, word_0x100]
  | di =>
    cases h
    obtain ⟨k, d, rfl⟩ := token_cases t
    cases k with
    | false => simp [decodeDI_data, Instr.wf, Instr.port, encode]
    | true => simp [decodeDI_end, Instr.wf, Instr.port, encode, word_0x100]
  | eo => simpa using decodeEO_eq_ok h
  | dO => simpa using decodeDO_eq_ok h

/-- What `EO` rejects: a code that is no symbol, and an `EDONE` with data (R67 (c)). -/
theorem decodeEO_rejects_iff (k : Bool) (d : Byte) :
    (∃ r, decodeEO (mkToken k d) = .error r) ↔ (k = true ∧ d ≠ 0x00#8) ∨ (k = false ∧ ¬ isSymbolCode d = true) := by
  cases k with
  | false =>
    by_cases hd : isSymbolCode d = true
    · simp [decodeEO_symbol hd, hd]
    · simp [decodeEO_foreign hd, hd]
  | true =>
    by_cases hd : d = 0x00#8
    · subst hd
      simp [decodeEO_done]
    · simp [decodeEO_doneData hd, hd]

/-- What `DO` rejects: a `DDONE` with one of bits 7:1 set (R67 (c)). -/
theorem decodeDO_rejects_iff (k : Bool) (d : Byte) :
    (∃ r, decodeDO (mkToken k d) = .error r) ↔ k = true ∧ d ≠ 0x00#8 ∧ d ≠ 0x01#8 := by
  cases k with
  | false => simp [decodeDO_data]
  | true =>
    by_cases h0 : d = 0x00#8
    · subst h0
      simp [decodeDO_ok]
    by_cases h1 : d = 0x01#8
    · subst h1
      simp [decodeDO_err]
    · simp [decodeDO_doneData h0 h1, h0, h1]

/-- Settles O4: the two characterisations by fields, read as words; a code is foreign exactly when `SYMROM` does not
hold it. -/
theorem outputPortsRejectWordsWithoutMeaning : Obligations.OutputPortsRejectWordsWithoutMeaning := by
  intro t
  obtain ⟨k, d, rfl⟩ := token_cases t
  refine ⟨(decodeEO_rejects_iff k d).trans ?_, (decodeDO_rejects_iff k d).trans ?_⟩
  · rw [isSymbolCode_iff, not_exists]
    cases k <;> simp [word_0x100]
  · cases k <;> simp [word_0x100, word_0x101]

/-- Settles O3: bit 8 is `KIND`, the one thing the decoders of the input ports look at. -/
theorem everyInputWordIsAnInstruction : Obligations.EveryInputWordIsAnInstruction := by
  intro t
  obtain ⟨k, d, rfl⟩ := token_cases t
  cases k with
  | false => simp [decode, decodeEI_data, decodeDI_data]
  | true => simp [decode, decodeEI_end, decodeDI_end]

/-- Settles O5: nine fixed words, each evaluated. -/
theorem writtenOutWordsDecode : Obligations.WrittenOutWordsDecode :=
  ⟨rfl, rfl, rfl, rfl, rfl, rfl, rfl, rfl, rfl⟩

end Sys2Proof.Machine
end

section
/-! PROOF. The output pins (30_encoding.md R72, 70_reset_and_hazards.md R170), where `exec` stops (R67 (c)), and how
`step` chooses the token it runs (R73, R97, R119, R176). -/

namespace Sys2Proof.Machine

/-- Under reset every output pin reads 0 and no word is shown (R170). -/
theorem State.pins_of_reset {s : State} (hs : s.Inv) (hr : s.rst = true) :
    s.pins = { eiReady := false, eoValid := false, eoData := none
               diReady := false, doValid := false, doData := none, decErr := false } := by
  obtain ⟨-, -, hidle⟩ := hs
  obtain ⟨he, hd⟩ := hidle hr
  simp [State.pins, State.eiReady, State.eoValid, State.diReady, State.doValid, State.decErr, hr, he, hd]

/-- A unit with output queued is not under reset (R170). -/
theorem State.Inv.released {s : State} (hs : s.Inv) (hq : s.e.oq ≠ [] ∨ s.d.oq ≠ []) : s.rst = false := by
  obtain ⟨-, -, hidle⟩ := hs
  by_contra hr
  obtain ⟨he, hd⟩ := hidle (by simpa using hr)
  simp [he, hd] at hq

/-- Settles O15: the ready pins are R72's by definition; the valid pins are R72's because the invariant keeps the
queues empty under reset. -/
theorem pinsFollowTheQueues : Obligations.PinsFollowTheQueues := by
  intro s hs
  refine ⟨State.eiReady_eq_true s, ?_, State.diReady_eq_true s, ?_, ?_, ?_, rfl, State.pins_of_reset hs⟩
  · exact (State.eoValid_eq_true s).trans ⟨And.right, fun hq => ⟨hs.released (.inl hq), hq⟩⟩
  · exact (State.doValid_eq_true s).trans ⟨And.right, fun hq => ⟨hs.released (.inr hq), hq⟩⟩
  · intro h rest hq
    simp [State.pins, hq]
  · intro h rest hq
    simp [State.pins, hq]

/-- Settles O23: only the arm of `ESYM` looks at its operand, and it asks whether `SYMROM` holds the code. -/
theorem onlyAForeignEsymStops : Obligations.OnlyAForeignEsymStops := by
  intro i s
  refine ⟨?_, fun hi => ?_⟩
  · rintro ch rfl hforeign
    have hch : ¬ isSymbolCode ch = true := by simpa [isSymbolCode_iff] using hforeign
    exact if_neg hch
  · cases i with
    | esym ch => exact ⟨_, exec_eoToken (.esym ⟨ch, (isSymbolCode_iff ch).2 (hi ch rfl)⟩) s⟩
    | epush | eend | dpush | dend | edone | dbyte | ddoneOk | ddoneErr => exact ⟨_, rfl⟩

/-- Settles O29: an enabled turn runs a token that is decoded from its port or stands in a queue, and none of these
is refused (`runTurn_cases`). -/
theorem everyStepHasANextState : Obligations.EveryStepHasANextState :=
  step_has_next

/-- A step whose turn is enabled runs what the turn fetches. -/
theorem step_of_fetch_some {s s' : State} {t : Turn} {turns : List Turn} {i : Instr} (hs : s.sched = t :: turns)
    (hf : fetch t { s with sched := turns } = some (i, s')) : step s = exec i s' :=
  (step_cons hs).trans (runTurn_of_fetch_some hf)

/-- Settles O26: an enabled `ACCEPT` turn fetches the token its word decodes to, and the state the word has left. -/
theorem stepRunsTheDecodedInputToken : Obligations.StepRunsTheDecodedInputToken := by
  intro s turns w rest i hr
  refine ⟨fun hs hi hq hd => ?_, fun hs hi hq hd => ?_⟩
  · obtain rfl : decodeEI w = i := Except.ok.inj hd
    exact step_of_fetch_some hs (by simp [fetch, hi, hr, hq, State.takeEI])
  · obtain rfl : decodeDI w = i := Except.ok.inj hd
    exact step_of_fetch_some hs (by simp [fetch, hi, hr, hq, State.takeDI])

/-- The word of an encoder's queue entry decodes to that entry (R62). -/
theorem EOToken.decode_word (h : EOToken) : decode .eo h.word = .ok h.instr := by
  cases h with
  | esym y => exact decodeReadsBackEveryEncodedToken (.esym y.code) y.isCode
  | edone => exact decodeReadsBackEveryEncodedToken .edone rfl

/-- The word of a decoder's queue entry decodes to that entry (R64). -/
theorem DOToken.decode_word (h : DOToken) : decode .dO h.word = .ok h.instr := by
  cases h with
  | dbyte b => exact decodeReadsBackEveryEncodedToken (.dbyte b) rfl
  | ddoneOk => exact decodeReadsBackEveryEncodedToken .ddoneOk rfl
  | ddoneErr => exact decodeReadsBackEveryEncodedToken .ddoneErr rfl

/-- Settles O27: an enabled `EMIT` turn fetches the head of the queue, and the head is what its word decodes to. -/
theorem stepRunsTheQueuedOutputToken : Obligations.StepRunsTheQueuedOutputToken := by
  intro s turns i hr
  refine ⟨fun h rest hs hq hd => ?_, fun h rest hs hq hd => ?_⟩
  · obtain rfl : h.instr = i := Except.ok.inj (h.decode_word.symm.trans hd)
    exact step_of_fetch_some hs (by simp [fetch, hq, hr])
  · obtain rfl : h.instr = i := Except.ok.inj (h.decode_word.symm.trans hd)
    exact step_of_fetch_some hs (by simp [fetch, hq, hr])

/-- An encoder `ACCEPT` turn with nothing offered or output still queued. -/
theorem step_encAccept_idle {s : State} {turns : List Turn} (hs : s.sched = .encAccept :: turns)
    (h : s.ei = [] ∨ s.e.oq ≠ []) : step s = .next { s with sched := turns } := by
  have hf : fetch .encAccept { s with sched := turns } = none := by
    obtain ⟨w, rest, hi, -, hq, -⟩ | hf := fetch_encAccept { s with sched := turns }
    · obtain he | he := h
      · cases he.symm.trans hi
      · exact absurd hq he
    · exact hf
  rw [step_cons hs, runTurn_of_fetch_none (by simp) (by simp) hf]

/-- A decoder `ACCEPT` turn with nothing offered or output still queued. -/
theorem step_decAccept_idle {s : State} {turns : List Turn} (hs : s.sched = .decAccept :: turns)
    (h : s.di = [] ∨ s.d.oq ≠ []) : step s = .next { s with sched := turns } := by
  have hf : fetch .decAccept { s with sched := turns } = none := by
    obtain ⟨w, rest, hi, -, hq, -⟩ | hf := fetch_decAccept { s with sched := turns }
    · obtain he | he := h
      · cases he.symm.trans hi
      · exact absurd hq he
    · exact hf
  rw [step_cons hs, runTurn_of_fetch_none (by simp) (by simp) hf]

/-- Settles O28: each of these turns fetches nothing. -/
theorem idleTurnsChangeOnlyTheSchedule : Obligations.IdleTurnsChangeOnlyTheSchedule := fun _ _ =>
  ⟨step_nil, step_encAccept_idle, step_decAccept_idle, step_encEmit_idle, step_decEmit_idle⟩

end Sys2Proof.Machine
end

section
/-! PROOF. The alphabet in closed form, and its two lookups as inverse functions (40_alphabet.md R80, R81, R83, R85). -/

namespace Sys2Proof.Machine

/-- `SYMROM` in the three runs in which R80 prints it: ten digits, 26 capital letters, nine other characters. -/
theorem symrom_eq_runs :
    symrom = (List.range 10).map (fun k => BitVec.ofNat 8 (0x30 + k)) ++
      ((List.range 26).map (fun k => BitVec.ofNat 8 (0x41 + k)) ++
        [0x20, 0x24, 0x25, 0x2A, 0x2B, 0x2D, 0x2E, 0x2F, 0x3A]) := by
  decide

/-- `symbolOf` reads the entry of `SYMROM` at its index (R81). -/
theorem symrom_getElem?_index (i : Index) : symrom[i.val]? = some (symbolOf i).code :=
  List.getElem?_eq_getElem (symrom_length.symm ▸ i.isLt)

/-- Settles O6: each range of the index falls into one of the three runs of `SYMROM`. -/
theorem alphabetIsTheClosedForm : Obligations.AlphabetIsTheClosedForm := by
  intro i
  have hread := symrom_getElem?_index i
  rw [symrom_eq_runs] at hread
  refine ⟨fun hdigit => ?_, fun hlo hhi => ?_, fun hother => ?_⟩
  · rw [List.getElem?_append_left (by simp; omega), List.getElem?_map, List.getElem?_range (by omega)] at hread
    rw [← Option.some.inj hread, BitVec.toNat_ofNat, Nat.mod_eq_of_lt (by omega)]
  · rw [List.getElem?_append_right (by simp; omega), List.getElem?_append_left (by simp; omega), List.getElem?_map,
      List.length_map, List.length_range, List.getElem?_range (by omega)] at hread
    rw [← Option.some.inj hread, BitVec.toNat_ofNat, Nat.mod_eq_of_lt (by omega)]
  · rw [List.getElem?_append_right (by simp; omega), List.getElem?_append_right (by simp; omega)] at hread
    simpa [Nat.sub_sub] using hread

/-- An index that is found is the place of the character in `SYMROM`, which the scan has compared (R43, R83). -/
theorem code_symbolOf_of_indexOf {ch : Byte} {i : Index} (h : indexOf ch = some i) : (symbolOf i).code = ch := by
  rw [indexOf_eq_scanIndexOf, scanIndexOf] at h
  have hread := List.find?_some h
  exact beq_iff_eq.mp hread

/-- The 45 characters are distinct (R80). -/
theorem code_symbolOf_injective : Function.Injective fun i : Index => (symbolOf i).code := by
  have hnodup : symrom.Nodup := by decide
  exact (List.nodup_iff_injective_get.mp hnodup).comp (Fin.cast_injective symrom_length.symm)

/-- The code of a symbol is found (`Symbol.isCode`), at an index with the same code, and no other index has it (R85). -/
theorem indexOf_code_symbolOf (i : Index) : indexOf (symbolOf i).code = some i := by
  obtain ⟨j, hj⟩ := Option.isSome_iff_exists.mp (symbolOf i).isCode
  have hji : j = i := code_symbolOf_injective (code_symbolOf_of_indexOf hj)
  rw [hj, hji]

/-- Settles O7. -/
theorem lookupsAreInverse : Obligations.LookupsAreInverse :=
  ⟨indexOf_code_symbolOf, fun _ _ => code_symbolOf_of_indexOf⟩

end Sys2Proof.Machine
end

section
/-! PROOF. A stream is cut back into the segments it was joined from, so with the queue drained the encoder's results
are `encode` of its messages (41_encoder.md R101, 43_message_properties.md R130, R138). -/

namespace Sys2Proof.Machine

/-- The words with `KIND` = 0 of a run of data (R60). -/
def dataWords (bs : List Byte) : List Token :=
  bs.map (mkToken false)

/-- The stream that a cutting describes: each closed run and its closing token, then the open run (R130). -/
def Cut.words (c : Cut) : List Token :=
  c.closed.flatMap (fun r => dataWords r.1 ++ [r.2]) ++ dataWords c.open_

/-- Data words go to the open run and close none. -/
theorem cut_append_dataWords (ts : List Token) (bs : List Byte) :
    cut (ts ++ dataWords bs) = { cut ts with open_ := (cut ts).open_ ++ bs } := by
  induction bs using List.reverseRecOn with
  | nil => simp [dataWords]
  | append_singleton bs b ih =>
    have hsplit : ts ++ dataWords (bs ++ [b]) = (ts ++ dataWords bs) ++ [mkToken false b] := by simp [dataWords]
    rw [hsplit, cut_append_singleton, ih]
    simp [Cut.push]

/-- Closed runs joined into a stream are cut back out of it. -/
theorem cut_flatMap_closed (rs : List (List Byte × Token)) (hrs : ∀ r ∈ rs, tokKind r.2 = true) :
    cut (rs.flatMap fun r => dataWords r.1 ++ [r.2]) = { closed := rs, open_ := [] } := by
  induction rs using List.reverseRecOn with
  | nil => rfl
  | append_singleton rs r ih =>
    have hr : tokKind r.2 = true := hrs r (by simp)
    rw [List.flatMap_append, List.flatMap_singleton, ← List.append_assoc, cut_append_singleton, cut_append_dataWords,
      ih fun x hx => hrs x (List.mem_append_left _ hx)]
    simp [Cut.push, hr]

/-- Cutting undoes joining when every closing token has `KIND` = 1 (R130). -/
theorem cut_words (c : Cut) (hc : ∀ r ∈ c.closed, tokKind r.2 = true) : cut c.words = c := by
  rw [Cut.words, cut_append_dataWords, cut_flatMap_closed c.closed hc]
  rfl

/-- The words of symbols are data words with their codes (R62). -/
theorem symbolWords_eq_dataWords (ys : List Symbol) : symbolWords ys = dataWords (ys.map Symbol.code) := by
  rw [dataWords, List.map_map]
  rfl

/-- An observer reads the answers to closed messages as their encodings, and nothing of an open message (R130). -/
theorem encoderResults_answers (ms : List (List Byte)) (ys : List Symbol) :
    encoderResults (ms.flatMap encoderAnswer ++ symbolWords ys) = ms.map encodeText := by
  have hwords : ms.flatMap encoderAnswer ++ symbolWords ys =
      Cut.words { closed := ms.map fun m => (encodeText m, encode .edone), open_ := ys.map Symbol.code } := by
    rw [Cut.words, List.flatMap_map, symbolWords_eq_dataWords]
    rfl
  rw [encoderResults, hwords, cut_words _ (by simp [encode])]
  simp

/-- An encoder on track with its queue drained has sent `encode` of each message it has accepted. -/
theorem State.EncoderTracks.results {s : State} (hs : s.EncoderTracks) (hq : s.e.oq = []) :
    encoderResults s.trace.eo = (messages s.trace.ei).map encodeText := by
  obtain ⟨hout, -⟩ := s.encoderTracks_iff.1 hs
  rw [hq, List.map_nil, List.append_nil] at hout
  rw [hout, encoderResults_answers]

/-- Settles O50: the encoder is on track at the beginning of the run (O47) and after every step (O48), so the words
sent are the answers to the messages, which the observer cuts apart again. -/
theorem encoderResultsAreEncodeOfTheMessages : Obligations.EncoderResultsAreEncodeOfTheMessages := by
  intro ei di sched k s hrun hq
  have htracks : s.EncoderTracks :=
    run_induction State.EncoderTracks everyStepKeepsTheEncoderOnTrack k (State.start_encoderTracks ei di sched) hrun
  exact htracks.results hq

end Sys2Proof.Machine
end

section
/-! PROOF. The divider: its digits spell the value, and no other digits do (41_encoder.md R91, R92). -/

namespace Sys2Proof.Machine

section Digits
variable (v : Unit16) (b : Byte)

@[simp] theorem div3_c_val : (div3 v).c.val = v.toNat % 2025 % 45 := rfl
@[simp] theorem div3_d_val : (div3 v).d.val = v.toNat % 2025 / 45 := rfl
@[simp] theorem div3_e_val : (div3 v).e.val = v.toNat / 2025 := rfl
@[simp] theorem div2_c_val : (div2 b).c.val = b.toNat % 45 := rfl
@[simp] theorem div2_d_val : (div2 b).d.val = b.toNat / 45 := rfl

theorem div3_spells : v.toNat = (div3 v).c.val + (div3 v).d.val * 45 + (div3 v).e.val * 2025 := by
  simp only [div3_c_val, div3_d_val, div3_e_val]
  omega

theorem div2_spells : b.toNat = (div2 b).c.val + (div2 b).d.val * 45 := by
  simp only [div2_c_val, div2_d_val]
  omega

/-- A 16-bit unit has the third digit at most 32 (R6 `E_MAX`). -/
theorem div3_e_le : (div3 v).e.val ≤ 32 := by
  have hv := v.isLt
  rw [div3_e_val]
  omega

/-- A byte has the second digit at most 5. -/
theorem div2_d_le : (div2 b).d.val ≤ 5 := by
  have hb := b.isLt
  rw [div2_d_val]
  omega

/-- Digits below 45 in the first two places that spell a unit are those of `div3`. -/
theorem div3_unique {c d e : Nat} (hc : c ≤ 44) (hd : d ≤ 44) (hv : v.toNat = c + d * 45 + e * 2025) :
    c = (div3 v).c.val ∧ d = (div3 v).d.val ∧ e = (div3 v).e.val := by
  simp only [div3_c_val, div3_d_val, div3_e_val]
  omega

end Digits

/-- Settles O9. -/
theorem divThreeGivesTheOnlyDigits : Obligations.DivThreeGivesTheOnlyDigits := fun v =>
  ⟨div3_spells v, div3_e_le v, fun _ _ _ => div3_unique v⟩

/-- Settles O10: the digits of `div2` with a third digit 0 spell the byte as a unit, so they are the only digits. -/
theorem divTwoIsDivThreeOnBytes : Obligations.DivTwoIsDivThreeOnBytes := by
  intro b
  have hb : (b.setWidth 16).toNat = b.toNat := BitVec.toNat_setWidth_of_le (by decide)
  obtain ⟨hc, hd, he⟩ := div3_unique (b.setWidth 16) (e := 0) (Nat.le_of_lt_succ (div2 b).c.isLt)
    (Nat.le_of_lt_succ (div2 b).d.isLt) (by simpa [hb] using div2_spells b)
  exact ⟨div2_spells b, div2_d_le b, Fin.ext hc.symm, Fin.ext hd.symm, he.symm⟩

end Sys2Proof.Machine
end

section
/-! PROOF. What `EPUSH`, `EEND`, `ESYM` and `EDONE` do when enabled, and what every token leaves unchanged
(41_encoder.md R95, R96, R97; 42_decoder.md R117, R118, R119). -/

namespace Sys2Proof.Machine

/-- The unit of a pair is its exact sum: 16 bits hold it (R65 (b), R179). -/
theorem unitOfPair_toNat (b0 b1 : Byte) : (unitOfPair b0 b1).toNat = b0.toNat * 256 + b1.toNat := by
  have h0 := b0.isLt
  have h1 := b1.isLt
  rw [unitOfPair, BitVec.toNat_ofNat]
  omega

section Enabled
variable {s : State}

theorem exec_epush_enabled (b : Byte) (hr : s.rst = false) (hq : s.e.oq = []) :
    exec (.epush b) s = .next { s with e := s.e.push b } :=
  congrArg _ (acceptE_ready _ hr hq)

theorem exec_eend_enabled (hr : s.rst = false) (hq : s.e.oq = []) :
    exec .eend s = .next { s with e := s.e.finish } :=
  congrArg _ (acceptE_ready _ hr hq)

end Enabled

/-- Settles O16: a second byte queues the digits that `div3` gives the unit of the pair. -/
theorem epushHoldsAByteOrEmitsAPair : Obligations.EpushHoldsAByteOrEmitsAPair := by
  intro b s hr hq
  rw [exec_epush_enabled b hr hq]
  refine ⟨fun hh => by rw [Encoder.push_first b hh, hq], fun hh => ?_⟩
  have hspells := div3_spells (unitOfPair s.e.hold b)
  rw [unitOfPair_toNat] at hspells
  exact ⟨_, _, _, hspells, by rw [Encoder.push_second b hh, hq]; rfl⟩

/-- Settles O17: a held byte leaves as the digits that `div2` gives it. -/
theorem eendEmitsTheRemainderAndDone : Obligations.EendEmitsTheRemainderAndDone := by
  intro s hr hq
  rw [exec_eend_enabled hr hq]
  refine ⟨fun hh => by rw [Encoder.finish_empty hh, hq]; rfl, fun hh => ?_⟩
  exact ⟨_, _, div2_spells s.e.hold, by rw [Encoder.finish_held hh, hq]; rfl⟩

/-- Settles O20. -/
theorem encoderEmitHandsOutTheHead : Obligations.EncoderEmitHandsOutTheHead := fun s rest hr =>
  ⟨fun y hq => exec_eoHead (.esym y) rest s hr hq, fun hq => exec_eoHead .edone rest s hr hq⟩

section Frames
variable (s : State)

theorem acceptE_frame (f : Encoder → Encoder) : acceptE f s = { s with e := (acceptE f s).e } := by
  obtain ⟨-, -, h⟩ | ⟨-, h⟩ := acceptE_cases f s <;> rw [h]

theorem acceptD_frame (f : Decoder → Decoder) : acceptD f s = { s with d := (acceptD f s).d } := by
  obtain ⟨-, -, h⟩ | ⟨-, h⟩ := acceptD_cases f s <;> rw [h]

theorem emitE_frame (i : Instr) :
    emitE i s = { s with
      e := { s.e with oq := (emitE i s).e.oq }, trace := { s.trace with eo := (emitE i s).trace.eo } } := by
  obtain ⟨t, rest, -, -, -, h⟩ | ⟨-, h⟩ := emitE_cases i s <;> rw [h]
  rfl

theorem emitD_frame (i : Instr) :
    emitD i s = { s with
      d := { s.d with oq := (emitD i s).d.oq }, trace := { s.trace with dO := (emitD i s).trace.dO } } := by
  obtain ⟨t, rest, -, -, -, h⟩ | ⟨-, h⟩ := emitD_cases i s <;> rw [h]
  rfl

end Frames

/-- A token of `EI` is run by an `ACCEPT` of the encoder. -/
theorem exec_of_port_ei {i : Instr} (hp : i.port = .ei) : ∃ f, ∀ s, exec i s = .next (acceptE f s) := by
  cases i with
  | epush b => exact ⟨Encoder.push b, fun _ => rfl⟩
  | eend => exact ⟨Encoder.finish, fun _ => rfl⟩
  | dpush | dend | esym | edone | dbyte | ddoneOk | ddoneErr => cases hp

/-- A token of `DI` is run by an `ACCEPT` of the decoder. -/
theorem exec_of_port_di {i : Instr} (hp : i.port = .di) : ∃ f, ∀ s, exec i s = .next (acceptD f s) := by
  cases i with
  | dpush ch => exact ⟨Decoder.push ch, fun _ => rfl⟩
  | dend => exact ⟨Decoder.finish, fun _ => rfl⟩
  | epush | eend | esym | edone | dbyte | ddoneOk | ddoneErr => cases hp

/-- A token of `EO` that has a next state is run by its `EMIT`. -/
theorem exec_of_port_eo {i : Instr} {s s' : State} (hp : i.port = .eo) (h : exec i s = .next s') :
    s' = emitE i s := by
  cases i with
  | esym ch =>
    by_cases hch : isSymbolCode ch = true
    · exact (Host.Outcome.next.inj ((if_pos hch).symm.trans h)).symm
    · cases (if_neg hch).symm.trans h
  | edone => exact (Host.Outcome.next.inj h).symm
  | epush | eend | dpush | dend | dbyte | ddoneOk | ddoneErr => cases hp

/-- A token of `DO` is run by its `EMIT`. -/
theorem exec_of_port_dO {i : Instr} (s : State) (hp : i.port = .dO) : exec i s = .next (emitD i s) := by
  cases i with
  | dbyte | ddoneOk | ddoneErr => rfl
  | epush | eend | dpush | dend | esym | edone => cases hp

/-- Settles O24. -/
theorem inputInstructionsTouchOnlyTheirUnit : Obligations.InputInstructionsTouchOnlyTheirUnit := by
  intro i s s' h
  refine ⟨fun hp => ?_, fun hp => ?_⟩
  · obtain ⟨f, hf⟩ := exec_of_port_ei hp
    obtain rfl : acceptE f s = s' := Host.Outcome.next.inj ((hf s).symm.trans h)
    exact acceptE_frame s f
  · obtain ⟨f, hf⟩ := exec_of_port_di hp
    obtain rfl : acceptD f s = s' := Host.Outcome.next.inj ((hf s).symm.trans h)
    exact acceptD_frame s f

/-- Settles O25. -/
theorem outputTokensTouchOnlyQueueAndStream : Obligations.OutputTokensTouchOnlyQueueAndStream := by
  intro i s s' h
  refine ⟨fun hp => ?_, fun hp => ?_⟩
  · obtain rfl := exec_of_port_eo hp h
    exact emitE_frame s i
  · obtain rfl : emitD i s = s' := Host.Outcome.next.inj ((exec_of_port_dO s hp).symm.trans h)
    exact emitD_frame s i

end Sys2Proof.Machine
end

section
/-! PROOF. The length laws (41_encoder.md R102, 42_decoder.md R125, 43_message_properties.md R132). -/

namespace Sys2Proof.Machine

theorem length_encodeSymbols (m : List Byte) :
    (encodeSymbols m).length = 3 * (m.length / 2) + (if m.length % 2 = 1 then 2 else 0) := by
  induction m using encodeSymbols.induct with
  | case1 => rfl
  | case2 b => simp [encodeSymbols, encSingle]
  | case3 b0 b1 rest ih =>
    simp only [encodeSymbols, encPair, List.length_append, List.length_cons, List.length_nil, ih]
    split <;> split <;> omega

theorem length_encodeText (m : List Byte) :
    (encodeText m).length = 3 * (m.length / 2) + (if m.length % 2 = 1 then 2 else 0) := by
  rw [encodeText, List.length_map, length_encodeSymbols]

theorem length_of_decTriple {c d e : Index} {bs : List Byte} (h : decTriple c d e = some bs) : bs.length = 2 := by
  obtain hv | hv := le_or_gt (c.val + d.val * 45 + e.val * 2025) 65535
  · rw [decTriple_inRange hv] at h
    cases h
    rfl
  · rw [decTriple_over hv] at h
    cases h

theorem length_of_decPair {c d : Index} {bs : List Byte} (h : decPair c d = some bs) : bs.length = 1 := by
  obtain hv | hv := le_or_gt (c.val + d.val * 45) 255
  · rw [decPair_inRange hv] at h
    cases h
    rfl
  · rw [decPair_over hv] at h
    cases h

theorem length_of_indicesOf {text : List Byte} {x : List Index} (h : indicesOf text = some x) :
    x.length = text.length := by
  induction text generalizing x with
  | nil =>
    cases h
    rfl
  | cons ch rest ih =>
    cases hi : indexOf ch with
    | none => simp [indicesOf, hi] at h
    | some i =>
      obtain ⟨y, hy, rfl⟩ : ∃ y, indicesOf rest = some y ∧ i :: y = x := by simpa [indicesOf, hi] using h
      simp [ih hy]

theorem length_of_decodeGroups {x : List Index} {bs : List Byte} (h : decodeGroups x = some bs) :
    bs.length = 2 * (x.length / 3) + (if x.length % 3 = 2 then 1 else 0) := by
  induction x using decodeGroups.induct generalizing bs with
  | case1 =>
    cases h
    rfl
  | case2 => cases h
  | case3 c d => simpa using length_of_decPair h
  | case4 c d e rest ht => simp [decodeGroups, ht] at h
  | case5 c d e rest two ht ih =>
    obtain ⟨more, hmore, rfl⟩ : ∃ more, decodeGroups rest = some more ∧ two ++ more = bs := by
      simpa [decodeGroups, ht] using h
    simp only [List.length_append, List.length_cons, length_of_decTriple ht, ih hmore]
    split <;> split <;> omega

theorem length_of_decodeText {text bs : List Byte} (h : decodeText text = some bs) :
    bs.length = 2 * (text.length / 3) + (if text.length % 3 = 2 then 1 else 0) := by
  cases hx : indicesOf text with
  | none => simp [decodeText, hx] at h
  | some x =>
    obtain ⟨-, hgroups⟩ : ¬ x.length % 3 = 1 ∧ decodeGroups x = some bs := by simpa [decodeText, hx] using h
    rw [length_of_decodeGroups hgroups, length_of_indicesOf hx]

/-- A scan sends at most two bytes for each triple of characters. -/
theorem length_decodeScan_le (text : List Byte) : (decodeScan text).1.length ≤ 2 * (text.length / 3) := by
  induction text using decodeScan.induct with
  | case6 a b ch rest c d e hch hb ha two ht ih =>
    simp only [decodeScan, ha, hb, hch, ht, List.length_append, List.length_cons, length_of_decTriple ht]
    omega
  | case1 | case2 | case3 | case4 | case5 | case7 | case8 => simp [decodeScan, *]

/-- A `DEND` that fails the message sends no byte of its own (R118, R154). -/
theorem closeScan_failed {sent : List Byte} {r : Option (List Index)} (h : (closeScan sent r).2 = false) :
    (closeScan sent r).1 = sent := by
  match r with
  | none | some [_] => rfl
  | some [] => cases h
  | some (c :: d :: _) =>
    cases hp : decPair c d with
    | none => simp [closeScan, hp]
    | some bytes => simp [closeScan, hp] at h

/-- Settles O41. -/
theorem lengthLaws : Obligations.LengthLaws := by
  refine ⟨fun bytes => ?_, fun _ _ => length_of_decodeText, fun text hfail => ?_⟩
  · refine ⟨length_encodeText bytes, ?_⟩
    rw [length_encodeText]
    split <;> omega
  · rw [decodeAnswer, closeScan_failed hfail]
    exact length_decodeScan_le text

end Sys2Proof.Machine
end

section
/-! PROOF. `decode` in the document's order, its four causes of failure, and that the decoder, which tests in stream
order, gives the same results (42_decoder.md R121, R122, R123; 60_exceptions.md R152, R157). -/

namespace Sys2Proof.Machine

/-! ## Indices of a text -/

section IndicesOf
variable {text : List Byte} {x : List Index}

theorem indicesOf_eq_some_iff : indicesOf text = some x ↔ text.map indexOf = x.map some := by
  induction text generalizing x with
  | nil => cases x <;> simp [indicesOf]
  | cons ch rest ih =>
    cases hi : indexOf ch with
    | none => cases x <;> simp [indicesOf, hi]
    | some i => cases x <;> simp [indicesOf, hi, ih, and_comm]

theorem indicesOf_eq_none_iff : indicesOf text = none ↔ ∃ ch ∈ text, indexOf ch = none := by
  induction text with
  | nil => simp [indicesOf]
  | cons ch rest ih => cases hi : indexOf ch <;> simp [indicesOf, hi, ih]

/-- The indices stand where their characters stand. -/
theorem getElem?_of_indicesOf (h : indicesOf text = some x) (j : Nat) (i : Index) :
    x[j]? = some i ↔ ∃ ch, text[j]? = some ch ∧ indexOf ch = some i := by
  have hj := congrArg (·[j]?) (indicesOf_eq_some_iff.1 h)
  simp only [List.getElem?_map] at hj
  rw [← Option.map_eq_some_iff, hj]
  simp

end IndicesOf

/-! ## The groups, and when they fail (R121) -/

/-- Some triple of the indices spells a value above 65535 (R121 step 3, `RANGE3`). -/
def TripleOver (x : List Index) : Prop :=
  ∃ (k : Nat) (c d e : Index), x[3 * k]? = some c ∧ x[3 * k + 1]? = some d ∧ x[3 * k + 2]? = some e ∧
    65535 < c.val + d.val * 45 + e.val * 2025

/-- The trailing pair of the indices spells a value above 255 (R121 step 4, `RANGE2`). -/
def PairOver (x : List Index) : Prop :=
  ∃ (k : Nat) (c d : Index), x.length = 3 * k + 2 ∧ x[3 * k]? = some c ∧ x[3 * k + 1]? = some d ∧
    255 < c.val + d.val * 45

section Groups
variable (c d e : Index) (x : List Index)

theorem decTriple_eq_none_iff : decTriple c d e = none ↔ 65535 < c.val + d.val * 45 + e.val * 2025 := by
  obtain hv | hv := le_or_gt (c.val + d.val * 45 + e.val * 2025) 65535
  · simp [decTriple_inRange hv, hv]
  · simp [decTriple_over hv, hv]

theorem decPair_eq_none_iff : decPair c d = none ↔ 255 < c.val + d.val * 45 := by
  obtain hv | hv := le_or_gt (c.val + d.val * 45) 255
  · simp [decPair_inRange hv, hv]
  · simp [decPair_over hv, hv]

/-- Fewer than three indices hold no triple. -/
theorem not_tripleOver_of_length_lt (hx : x.length < 3) : ¬ TripleOver x := by
  rintro ⟨k, c, d, e, -, -, he, -⟩
  have hlt := (List.getElem?_eq_some_iff.1 he).1
  omega

theorem tripleOver_cons3 :
    TripleOver (c :: d :: e :: x) ↔ 65535 < c.val + d.val * 45 + e.val * 2025 ∨ TripleOver x := by
  constructor
  · rintro ⟨_ | k, c', d', e', hc, hd, he, hv⟩
    · cases hc
      cases hd
      cases he
      exact .inl hv
    · exact .inr ⟨k, c', d', e', hc, hd, he, hv⟩
  · rintro (hv | ⟨k, c', d', e', hc, hd, he, hv⟩)
    · exact ⟨0, c, d, e, rfl, rfl, rfl, hv⟩
    · exact ⟨k + 1, c', d', e', hc, hd, he, hv⟩

theorem pairOver_pair : PairOver [c, d] ↔ 255 < c.val + d.val * 45 := by
  constructor
  · rintro ⟨k, c', d', hk, hc, hd, hv⟩
    obtain rfl : k = 0 := by simpa using hk
    cases hc
    cases hd
    exact hv
  · exact fun hv => ⟨0, c, d, rfl, rfl, rfl, hv⟩

theorem pairOver_cons3 : PairOver (c :: d :: e :: x) ↔ PairOver x := by
  constructor
  · rintro ⟨_ | k, c', d', hk, hc, hd, hv⟩
    · simp at hk
    · exact ⟨k, c', d', by simpa [Nat.mul_succ] using hk, hc, hd, hv⟩
  · rintro ⟨k, c', d', hk, hc, hd, hv⟩
    exact ⟨k + 1, c', d', by simp [hk, Nat.mul_succ], hc, hd, hv⟩

theorem decodeGroups_cons3 :
    decodeGroups (c :: d :: e :: x) = (decTriple c d e).bind fun two => (decodeGroups x).map (two ++ ·) := by
  cases ht : decTriple c d e <;> simp [decodeGroups, ht]

theorem decodeGroups_eq_none_iff :
    decodeGroups x = none ↔ x.length % 3 = 1 ∨ TripleOver x ∨ PairOver x := by
  induction x using decodeGroups.induct with
  | case1 => simp [decodeGroups, not_tripleOver_of_length_lt, PairOver]
  | case2 => simp [decodeGroups]
  | case3 c d => simp [decodeGroups, decPair_eq_none_iff, not_tripleOver_of_length_lt, pairOver_pair]
  | case4 c d e rest ht => simp [decodeGroups_cons3, tripleOver_cons3, ht, (decTriple_eq_none_iff c d e).1 ht]
  | case5 c d e rest two ht ih =>
    have hv : ¬ 65535 < c.val + d.val * 45 + e.val * 2025 := by simp [← decTriple_eq_none_iff, ht]
    have hlen : (c :: d :: e :: rest).length % 3 = rest.length % 3 := Nat.add_mod_right _ 3
    rw [hlen, tripleOver_cons3, pairOver_cons3, decodeGroups_cons3, ht]
    simpa [hv] using ih

end Groups

/-! ## `decode` -/

/-- Step 2 of R121 rejects nothing that the groups would accept. -/
theorem decodeText_eq (text : List Byte) : decodeText text = (indicesOf text).bind decodeGroups := by
  cases hx : indicesOf text with
  | none => simp [decodeText, hx]
  | some x =>
    simp only [decodeText, hx, Option.bind_some]
    split
    · next hlen => exact ((decodeGroups_eq_none_iff x).2 (.inl hlen)).symm
    · rfl

theorem decodeText_foreign {text : List Byte} (h : ∃ ch ∈ text, indexOf ch = none) : decodeText text = none := by
  rw [decodeText_eq, indicesOf_eq_none_iff.2 h]
  rfl

/-- A text in which no character fails the lookup has an index for each. -/
theorem exists_index_of_not_foreign {text : List Byte} (h : ¬ ∃ ch ∈ text, indexOf ch = none) {ch : Byte}
    (hch : ch ∈ text) : ∃ i, indexOf ch = some i :=
  Option.ne_none_iff_exists'.1 fun hnone => h ⟨ch, hch, hnone⟩

theorem decodeText_cons3 {a b ch : Byte} {c d e : Index} (ha : indexOf a = some c) (hb : indexOf b = some d)
    (hch : indexOf ch = some e) (rest : List Byte) :
    decodeText (a :: b :: ch :: rest) = (decTriple c d e).bind fun two => (decodeText rest).map (two ++ ·) := by
  simp only [decodeText_eq, indicesOf, ha, hb, hch]
  cases indicesOf rest <;> simp [decodeGroups_cons3]

/-- Settles O43: when every character is found, the indices fail as groups exactly by the last three causes, and they
stand where their characters do. -/
theorem decodeFailsExactlyByTheFourCauses : Obligations.DecodeFailsExactlyByTheFourCauses := by
  intro text
  rw [decodeText_eq, ← indicesOf_eq_none_iff]
  cases hx : indicesOf text with
  | none => simp
  | some x =>
    simp only [Option.bind_some, decodeGroups_eq_none_iff, TripleOver, PairOver, getElem?_of_indicesOf hx,
      length_of_indicesOf hx, reduceCtorEq, false_or]
    refine or_congr_right (or_congr ⟨?_, ?_⟩ ⟨?_, ?_⟩)
    · rintro ⟨k, c, d, e, ⟨a, hta, ha⟩, ⟨b, htb, hb⟩, ⟨ch, htch, hch⟩, hv⟩
      exact ⟨k, a, b, ch, c, d, e, hta, htb, htch, ha, hb, hch, hv⟩
    · rintro ⟨k, a, b, ch, c, d, e, hta, htb, htch, ha, hb, hch, hv⟩
      exact ⟨k, c, d, e, ⟨a, hta, ha⟩, ⟨b, htb, hb⟩, ⟨ch, htch, hch⟩, hv⟩
    · rintro ⟨k, c, d, hk, ⟨a, hta, ha⟩, ⟨b, htb, hb⟩, hv⟩
      exact ⟨k, a, b, c, d, hk, hta, htb, ha, hb, hv⟩
    · rintro ⟨k, a, b, c, d, hk, hta, htb, ha, hb, hv⟩
      exact ⟨k, c, d, hk, ⟨a, hta, ha⟩, ⟨b, htb, hb⟩, hv⟩

/-! ## Stream order (R122) -/

/-- The answer to a text that begins with a good triple is the triple's bytes and the answer to the rest. -/
theorem decodeAnswer_cons3 {a b ch : Byte} {c d e : Index} (ha : indexOf a = some c) (hb : indexOf b = some d)
    (hch : indexOf ch = some e) {two : List Byte} (ht : decTriple c d e = some two) (rest : List Byte) :
    decodeAnswer (a :: b :: ch :: rest) = (two ++ (decodeAnswer rest).1, (decodeAnswer rest).2) := by
  simp only [decodeAnswer, decodeScan, ha, hb, hch, ht]
  rw [closeScan_eq, closeScan_eq (decodeScan rest).1, List.append_assoc]

/-- A scan that has failed is answered with the status ERR (R118). -/
theorem decodeAnswer_failed {text : List Byte} (h : (decodeScan text).2 = none) :
    (decodeAnswer text).2 = false := by
  rw [decodeAnswer, h]
  rfl

/-- Settles O44, by the cases of the scan: a good triple adds its bytes to both results, and where the scan fails so
does `decode`. -/
theorem streamOrderDecodesLikeTheDocument : Obligations.StreamOrderDecodesLikeTheDocument := by
  intro text
  induction text using decodeScan.induct with
  | case1 => rfl
  | case2 a c ha => simp [decodeText_eq, indicesOf, decodeGroups, decodeAnswer, decodeScan, closeScan, ha]
  | case3 a ha => simp [decodeText_eq, indicesOf, decodeAnswer, decodeScan, closeScan, ha]
  | case4 a b c d hb ha =>
    cases hp : decPair c d <;>
      simp [decodeText_eq, indicesOf, decodeGroups, decodeAnswer, decodeScan, closeScan, ha, hb, hp]
  | case5 a b hfound =>
    have hforeign : ∃ x ∈ [a, b], indexOf x = none := by
      by_contra hall
      obtain ⟨c, ha⟩ := exists_index_of_not_foreign hall (ch := a) (by simp)
      obtain ⟨d, hb⟩ := exists_index_of_not_foreign hall (ch := b) (by simp)
      exact hfound c d ha hb
    simp [decodeText_foreign hforeign, decodeAnswer_failed, decodeScan]
  | case6 a b ch rest c d e hch hb ha two ht ih =>
    rw [decodeText_cons3 ha hb hch, ht, ih, decodeAnswer_cons3 ha hb hch ht]
    cases (decodeAnswer rest).2 <;> simp
  | case7 a b ch rest c d e hch hb ha ht =>
    simp [decodeText_cons3 ha hb hch, decodeAnswer_failed, decodeScan, ha, hb, hch, ht]
  | case8 a b ch rest hfound =>
    have hforeign : ∃ x ∈ a :: b :: ch :: rest, indexOf x = none := by
      by_contra hall
      obtain ⟨c, ha⟩ := exists_index_of_not_foreign hall (ch := a) (by simp)
      obtain ⟨d, hb⟩ := exists_index_of_not_foreign hall (ch := b) (by simp)
      obtain ⟨e, hch⟩ := exists_index_of_not_foreign hall (ch := ch) (by simp)
      exact hfound c d e ha hb hch
    simp [decodeText_foreign hforeign, decodeAnswer_failed, decodeScan]

/-- Settles O45, by induction on what follows: one more character leaves a failed scan as it is. -/
theorem aFailedMessageSendsNothingMore : Obligations.AFailedMessageSendsNothingMore := by
  intro text more hfail
  have hsame : decodeScan (text ++ more) = decodeScan text := by
    induction more using List.reverseRecOn with
    | nil => rw [List.append_nil]
    | append_singleton more ch ih =>
      rw [← List.append_assoc, decodeScan_append_singleton, ih, hfail]
      simp [scanNext, Prod.ext_iff, hfail]
  exact ⟨hsame, decodeAnswer_failed (hsame ▸ hfail)⟩

end Sys2Proof.Machine
end

section
/-! PROOF. With its queue drained the decoder's results are `decode` of its messages (42_decoder.md R122, R124;
43_message_properties.md R130, R138). -/

namespace Sys2Proof.Machine

/-- The closing word of either status has `KIND` = 1 (R64). -/
@[simp] theorem tokKind_doneToken (ok : Bool) : tokKind (doneToken ok).word = true := by
  cases ok <;> rfl

/-- Bit 0 of a closing word is the status `ST`: 1 for ERR (R64). -/
@[simp] theorem status_doneToken (ok : Bool) : (tokData (doneToken ok).word)[0] = !ok := by
  cases ok <;> rfl

/-- The answer to a message is one segment: data words, then the closing word (R130). -/
theorem decoderAnswer_eq_segment (m : List Byte) :
    decoderAnswer m = dataWords (decodeAnswer m).1 ++ [(doneToken (decodeAnswer m).2).word] := by
  rw [decoderAnswer]
  cases (decodeAnswer m).2 <;> rfl

/-- An observer reads the answers to closed messages as their decodings, and nothing of an open message (R130). -/
theorem decoderResults_answers (ms : List (List Byte)) (bs : List Byte) :
    decoderResults (ms.flatMap decoderAnswer ++ byteWords bs) = ms.map decodeText := by
  have hwords : ms.flatMap decoderAnswer ++ byteWords bs = Cut.words
      { closed := ms.map fun m => ((decodeAnswer m).1, (doneToken (decodeAnswer m).2).word), open_ := bs } := by
    rw [Cut.words, List.flatMap_map, funext decoderAnswer_eq_segment]
    rfl
  rw [decoderResults, hwords, cut_words _ (by simp), List.map_map]
  refine List.map_congr_left fun m _ => ?_
  rw [streamOrderDecodesLikeTheDocument m]
  cases hok : (decodeAnswer m).2 <;> simp [hok]

/-- A decoder on track with its queue drained has sent `decode` of each message it has accepted. -/
theorem State.DecoderTracks.results {s : State} (hs : s.DecoderTracks) (hq : s.d.oq = []) :
    decoderResults s.trace.dO = (messages s.trace.di).map decodeText := by
  obtain ⟨hout, -⟩ := s.decoderTracks_iff.1 hs
  rw [hq, List.map_nil, List.append_nil] at hout
  rw [hout, decoderResults_answers]

/-- Settles O51: the decoder is on track at the beginning of the run (O47) and after every step (O49), so the words sent
are the answers to the messages, each of which reads as `decode` of its message (O44). -/
theorem decoderResultsAreDecodeOfTheMessages : Obligations.DecoderResultsAreDecodeOfTheMessages := by
  intro ei di sched k s hrun hq
  have htracks : s.DecoderTracks :=
    run_induction State.DecoderTracks everyStepKeepsTheDecoderOnTrack k (State.start_decoderTracks ei di sched) hrun
  exact htracks.results hq

end Sys2Proof.Machine
end

section
/-! PROOF. The decoder's range checks and groups: which are accepted, and that they are the encoder's (42_decoder.md
R112, R113, R114, R115, R126; 70_reset_and_hazards.md R179). -/

namespace Sys2Proof.Machine

/-! ## The bytes of a value (R46) -/

section Bytes
variable {v : Nat}

theorem byteLo_toNat (hv : v ≤ 255) : (byteLo v).toNat = v := by
  rw [byteLo, BitVec.toNat_ofNat]
  omega

/-- Reading a byte's value gives the byte back. -/
theorem byteLo_of_toNat (b : Byte) : byteLo b.toNat = b :=
  BitVec.eq_of_toNat_eq (byteLo_toNat (Nat.le_of_lt_succ b.isLt))

/-- A value of 16 bits is its two bytes, high byte first. -/
theorem bytes_spell (hv : v ≤ 65535) : v = (byteHi v).toNat * 256 + (byteLo v).toNat := by
  simp only [byteHi, byteLo, BitVec.toNat_ofNat]
  omega

/-- Only its own bytes spell a value. -/
theorem bytes_unique (b0 b1 : Byte) (hv : v = b0.toNat * 256 + b1.toNat) : byteHi v = b0 ∧ byteLo v = b1 := by
  have h0 := b0.isLt
  have h1 := b1.isLt
  simp only [byteHi, byteLo, BitVec.toNat_eq, BitVec.toNat_ofNat]
  omega

end Bytes

/-! ## The groups as values -/

section GroupValues
variable {c d e : Index}

theorem decTriple_isSome_iff : (decTriple c d e).isSome = true ↔ c.val + d.val * 45 + e.val * 2025 ≤ 65535 := by
  rw [Option.isSome_iff_ne_none, Ne, decTriple_eq_none_iff, Nat.not_lt]

theorem decPair_isSome_iff : (decPair c d).isSome = true ↔ c.val + d.val * 45 ≤ 255 := by
  rw [Option.isSome_iff_ne_none, Ne, decPair_eq_none_iff, Nat.not_lt]

/-- A triple decodes to the two bytes that spell its value, and to no others. -/
theorem decTriple_eq_some_iff {b0 b1 : Byte} :
    decTriple c d e = some [b0, b1] ↔ b0.toNat * 256 + b1.toNat = c.val + d.val * 45 + e.val * 2025 := by
  constructor
  · intro h
    have hv := decTriple_isSome_iff.1 (Option.isSome_of_eq_some h)
    rw [decTriple_inRange hv] at h
    cases h
    exact (bytes_spell hv).symm
  · intro h
    obtain ⟨h0, h1⟩ := bytes_unique b0 b1 h.symm
    rw [decTriple_inRange (by omega), h0, h1]

/-- A pair decodes to the byte of its value, and to no other. -/
theorem decPair_eq_some_iff {b : Byte} : decPair c d = some [b] ↔ b.toNat = c.val + d.val * 45 := by
  constructor
  · intro h
    have hv := decPair_isSome_iff.1 (Option.isSome_of_eq_some h)
    rw [decPair_inRange hv] at h
    cases h
    exact byteLo_toNat hv
  · intro h
    rw [decPair_inRange (by omega), ← h, byteLo_of_toNat]

theorem div3_eq_iff {v : Unit16} :
    div3 v = { c := c, d := d, e := e } ↔ v.toNat = c.val + d.val * 45 + e.val * 2025 := by
  constructor
  · intro h
    have hv := div3_spells v
    rwa [h] at hv
  · intro h
    obtain ⟨hc, hd, he⟩ := div3_unique v (by omega) (by omega) h
    rw [Fin.ext hc, Fin.ext hd, Fin.ext he]

theorem div2_eq_iff {b : Byte} : div2 b = { c := c, d := d } ↔ b.toNat = c.val + d.val * 45 := by
  constructor
  · intro h
    have hb := div2_spells b
    rwa [h] at hb
  · intro h
    have hc : (div2 b).c = c := Fin.ext (by rw [div2_c_val]; omega)
    have hd : (div2 b).d = d := Fin.ext (by rw [div2_d_val]; omega)
    rw [← hc, ← hd]

end GroupValues

/-- Settles O12: an accepted group is one whose value fits, and both directions of the divider are spelled by the same
equation of values. -/
theorem acceptedGroupsAreTheEncodersGroups : Obligations.AcceptedGroupsAreTheEncodersGroups := by
  refine ⟨fun c d e => ?_, fun c d => ?_, fun b0 b1 c d e => ?_, fun b c d => ?_⟩
  · rw [decTriple_isSome_iff]
    omega
  · rw [decPair_isSome_iff]
    omega
  · rw [decTriple_eq_some_iff, div3_eq_iff, unitOfPair_toNat]
  · rw [decPair_eq_some_iff, div2_eq_iff]

/-! ## The range validator in bits (R115) -/

/-- Three bits are 0 exactly when none of them is set. -/
theorem threeBits_ne_zero : ∀ h : BitVec 3, decide (h ≠ 0#3) = (h[2] || h[1] || h[0]) := by
  decide

/-- A value is above 255 exactly when its bits above bit 7 are not 0; 11 bits have three of them. -/
theorem overPair_eq_highBits (v : BitVec 11) : overPair v.toNat = decide (v.extractLsb' 8 3 ≠ 0#3) := by
  have hv := v.isLt
  have hbits : (v.extractLsb' 8 3).toNat = v.toNat / 256 := by
    rw [BitVec.extractLsb'_toNat, Nat.shiftRight_eq_div_pow]
    omega
  refine decide_eq_decide.2 ?_
  rw [Ne, BitVec.toNat_eq, hbits, BitVec.toNat_ofNat]
  simp only [Config.unit1Max_eq]
  omega

/-- Settles O11: bit 16 is the top bit of 17, and bits 10:8 are all that stands above bit 7. -/
theorem rangeValidatorReadsTheHighBits : Obligations.RangeValidatorReadsTheHighBits := by
  refine ⟨fun v => ?_, fun v _ => ?_⟩
  · exact (BitVec.msb_eq_decide v).symm
  · rw [overPair_eq_highBits, threeBits_ne_zero]
    simp

/-- In a state with the invariant the accumulator holds at most the value of two symbols (R32 (c), R6 `PAIR_MAX`). -/
theorem Decoder.Inv.acc_le {u : Decoder} (hu : u.Inv) : u.acc.toNat ≤ 2024 := by
  obtain ⟨⟨h0, h1, h2, -⟩, -⟩ := (Decoder.inv_iff u).1 hu
  obtain hc | hc | hc := u.cnt_cases
  · simp [h0 hc]
  · exact (h1 hc).trans (by decide)
  · exact h2 hc

/-- Settles O32: two symbols spell at most 2024, and 44 times 2025 more is still below `2 ^ 17`. -/
theorem accumulatorNeverWraps : Obligations.AccumulatorNeverWraps := by
  intro s i hs
  obtain ⟨-, hd, -⟩ := hs
  have hacc := hd.acc_le
  have hsum : s.d.acc.toNat + i.val * 2025 ≤ 91124 := by omega
  refine ⟨hsum, ?_⟩
  rw [BitVec.toNat_add, BitVec.toNat_ofNat, Nat.mod_eq_of_lt (by omega : i.val * 2025 < 2 ^ 17),
    Nat.mod_eq_of_lt (by omega)]

end Sys2Proof.Machine
end

section
/-! PROOF. What `DPUSH`, `DEND` and the output tokens of the decoder do when enabled (42_decoder.md R117, R118, R119;
60_exceptions.md R153, R154). -/

namespace Sys2Proof.Machine

section Enabled
variable {s : State}

theorem exec_dpush_enabled (ch : Byte) (hr : s.rst = false) (hq : s.d.oq = []) :
    exec (.dpush ch) s = .next { s with d := s.d.push ch } :=
  congrArg _ (acceptD_ready _ hr hq)

theorem exec_dend_enabled (hr : s.rst = false) (hq : s.d.oq = []) :
    exec .dend s = .next { s with d := s.d.finish } :=
  congrArg _ (acceptD_ready _ hr hq)

end Enabled

/-- A sum below `2 ^ 17` is stored in `D.acc` as it is (R179). -/
theorem acc_toNat_ofNat {v : Nat} (hv : v < 2 ^ 17) : (BitVec.ofNat 17 v).toNat = v :=
  (BitVec.toNat_ofNat v 17).trans (Nat.mod_eq_of_lt hv)

/-- Settles O18: each case is an equation of `Decoder.push`, and the sums of the first two symbols fit `D.acc`. -/
theorem dpushAccumulatesEmitsOrRaises : Obligations.DpushAccumulatesEmitsOrRaises := by
  intro ch s hr hq
  rw [exec_dpush_enabled ch hr hq]
  refine ⟨fun he => by rw [Decoder.push_discarded he], fun he hi => by rw [Decoder.push_notFound he hi, hq],
    fun he i hi => ?_⟩
  rw [Decoder.push_found he hi]
  refine ⟨fun hc => ?_, fun hc hacc => ?_, fun hc hv => ?_, fun hc hv => ?_⟩
  · exact ⟨_, acc_toNat_ofNat (by omega), by rw [Decoder.fold_first hc, he, hq]⟩
  · exact ⟨_, acc_toNat_ofNat (by omega), by rw [Decoder.fold_second hc, he, hq]⟩
  · exact ⟨_, _, bytes_spell hv, by rw [Decoder.fold_third hc, Decoder.complete_inRange hv, he, hq, List.nil_append]⟩
  · rw [Decoder.fold_third hc, Decoder.complete_over hv, hq]

/-- Settles O19: the clearing writes are those of every `DEND`, and each case is an equation of what it emits. -/
theorem dendClosesTheMessage : Obligations.DendClosesTheMessage := by
  intro s hr hq
  rw [exec_dend_enabled hr hq, Decoder.finish_eq]
  refine ⟨fun he => ?_, fun he hc => ?_, fun he hc => ?_, fun he hc hv => ?_, fun he hc hv => ?_⟩
  · rw [Decoder.close_failed he, Decoder.emit_oq, hq, List.nil_append]
  · rw [Decoder.close_complete he hc, Decoder.emit_oq, hq, List.nil_append]
  · rw [Decoder.close_single he hc, Decoder.emit_oq, hq, List.nil_append]
  · exact ⟨_, byteLo_toNat hv, by rw [Decoder.close_remainder he hc hv, Decoder.emit_oq, hq, List.nil_append]⟩
  · rw [Decoder.close_over he hc hv, Decoder.emit_oq, hq, List.nil_append]

/-- Settles O21. -/
theorem decoderEmitHandsOutTheHead : Obligations.DecoderEmitHandsOutTheHead := fun s rest hr =>
  ⟨fun b hq => exec_doHead (.dbyte b) rest s hr hq, fun hq => exec_doHead .ddoneOk rest s hr hq,
    fun hq => exec_doHead .ddoneErr rest s hr hq⟩

end Sys2Proof.Machine
end

section
/-! PROOF. Decoding and encoding whole messages are inverse (43_message_properties.md R131, R137). Each group is
spelled by one equation of values, which the divider and the group functions of the decoder share. -/

namespace Sys2Proof.Machine

/-- The decoder reads the digits of a pair back as its bytes (R126). -/
theorem decTriple_div3 (b0 b1 : Byte) :
    decTriple (div3 (unitOfPair b0 b1)).c (div3 (unitOfPair b0 b1)).d (div3 (unitOfPair b0 b1)).e = some [b0, b1] :=
  decTriple_eq_some_iff.2 (unitOfPair_toNat b0 b1 ▸ div3_spells _)

/-- The decoder reads the digits of a single byte back as the byte (R126). -/
theorem decPair_div2 (b : Byte) : decPair (div2 b).c (div2 b).d = some [b] :=
  decPair_eq_some_iff.2 (div2_spells b)

/-- A text of two symbols is its trailing pair (R121). -/
theorem decodeText_pair {a b : Byte} {c d : Index} (ha : indexOf a = some c) (hb : indexOf b = some d) :
    decodeText [a, b] = decPair c d := by
  simp [decodeText_eq, indicesOf, decodeGroups, ha, hb]

/-- Settles O39, by the recursion of `encode`: each pair is one good triple of the text, and an odd byte is the trailing
pair. -/
theorem decodeUndoesEncode : Obligations.DecodeUndoesEncode := by
  intro bytes
  induction bytes using encodeSymbols.induct with
  | case1 => rfl
  | case2 b => exact (decodeText_pair (indexOf_code_symbolOf _) (indexOf_code_symbolOf _)).trans (decPair_div2 b)
  | case3 b0 b1 rest ih =>
    have htext : encodeText (b0 :: b1 :: rest) =
        (symbolOf (div3 (unitOfPair b0 b1)).c).code :: (symbolOf (div3 (unitOfPair b0 b1)).d).code ::
          (symbolOf (div3 (unitOfPair b0 b1)).e).code :: encodeText rest := rfl
    rw [htext, decodeText_cons3 (indexOf_code_symbolOf _) (indexOf_code_symbolOf _) (indexOf_code_symbolOf _),
      decTriple_div3, ih]
    rfl

/-- A triple that is accepted is the one the encoder gives the bytes it decodes to (R126). -/
theorem encPair_of_decTriple {c d e : Index} {two : List Byte} (h : decTriple c d e = some two) :
    ∃ b0 b1, two = [b0, b1] ∧ encPair b0 b1 = [symbolOf c, symbolOf d, symbolOf e] := by
  obtain ⟨b0, b1, rfl⟩ := List.length_eq_two.1 (length_of_decTriple h)
  have hdigits : div3 (unitOfPair b0 b1) = { c := c, d := d, e := e } :=
    div3_eq_iff.2 ((unitOfPair_toNat b0 b1).trans (decTriple_eq_some_iff.1 h))
  exact ⟨b0, b1, rfl, by rw [encPair, hdigits]⟩

/-- A trailing pair that is accepted is the one the encoder gives the byte it decodes to (R126). -/
theorem encSingle_of_decPair {c d : Index} {one : List Byte} (h : decPair c d = some one) :
    ∃ b, one = [b] ∧ encSingle b = [symbolOf c, symbolOf d] := by
  obtain ⟨b, rfl⟩ := List.length_eq_one_iff.1 (length_of_decPair h)
  have hdigits : div2 b = { c := c, d := d } := div2_eq_iff.2 (decPair_eq_some_iff.1 h)
  exact ⟨b, rfl, by rw [encSingle, hdigits]⟩

/-- Indices that are accepted as groups are those of the symbols that encode their bytes. -/
theorem encodeSymbols_of_decodeGroups {x : List Index} {bytes : List Byte} (h : decodeGroups x = some bytes) :
    encodeSymbols bytes = x.map symbolOf := by
  induction x using decodeGroups.induct generalizing bytes with
  | case1 =>
    cases h
    rfl
  | case2 => cases h
  | case3 c d =>
    obtain ⟨b, rfl, hsyms⟩ := encSingle_of_decPair h
    exact hsyms
  | case4 c d e rest ht => simp [decodeGroups_cons3, ht] at h
  | case5 c d e rest two ht ih =>
    obtain ⟨more, hmore, rfl⟩ : ∃ more, decodeGroups rest = some more ∧ two ++ more = bytes := by
      simpa [decodeGroups_cons3, ht] using h
    obtain ⟨b0, b1, rfl, hsyms⟩ := encPair_of_decTriple ht
    simp [encodeSymbols, hsyms, ih hmore]

/-- The text of some indices, read by the lookup, is the codes of their symbols (R85). -/
theorem eq_codes_of_indicesOf {text : List Byte} {x : List Index} (h : indicesOf text = some x) :
    text = x.map fun i => (symbolOf i).code := by
  induction text generalizing x with
  | nil =>
    cases h
    rfl
  | cons ch rest ih =>
    cases hi : indexOf ch with
    | none => simp [indicesOf, hi] at h
    | some i =>
      obtain ⟨y, hy, rfl⟩ : ∃ y, indicesOf rest = some y ∧ i :: y = x := by simpa [indicesOf, hi] using h
      rw [List.map_cons, code_symbolOf_of_indexOf hi, ← ih hy]

/-- Settles O40: an accepted text is the codes of its indices, and those are the symbols that encode the bytes. -/
theorem encodeUndoesDecode : Obligations.EncodeUndoesDecode := by
  intro text bytes h
  rw [decodeText_eq] at h
  obtain ⟨x, hx, hgroups⟩ := Option.bind_eq_some_iff.1 h
  rw [encodeText, encodeSymbols_of_decodeGroups hgroups, eq_codes_of_indicesOf hx, List.map_map]
  rfl

end Sys2Proof.Machine
end

section
/-! PROOF. Each accepted END token is answered by exactly one DONE token (43_message_properties.md R130). -/

namespace Sys2Proof.Machine

@[simp] theorem tokKind_word_esym (y : Symbol) : tokKind (EOToken.esym y).word = false :=
  Laws.tokKind_mkToken false y.code

@[simp] theorem tokKind_word_edone : tokKind EOToken.edone.word = true := rfl

@[simp] theorem tokKind_word_dbyte (b : Byte) : tokKind (DOToken.dbyte b).word = false :=
  Laws.tokKind_mkToken false b

@[simp] theorem tokKind_word_ddoneOk : tokKind DOToken.ddoneOk.word = true := rfl

@[simp] theorem tokKind_word_ddoneErr : tokKind DOToken.ddoneErr.word = true := rfl

/-- A unit's DONE words, emitted or queued, are as many as the END words it has accepted (R130). -/
def EndsAnswered (accepted sent queued : List Token) : Prop :=
  (sent ++ queued).countP tokKind = accepted.countP tokKind

section EndsAnswered
variable {accepted sent queued : List Token} {w : Token}

/-- An `ACCEPT` that finds the queue empty keeps the count when it queues one DONE for an END and none for data. -/
theorem EndsAnswered.accept (h : EndsAnswered accepted sent [])
    (hw : queued.countP tokKind = [w].countP tokKind) : EndsAnswered (accepted ++ [w]) sent queued := by
  rw [EndsAnswered, List.append_nil] at h
  rw [EndsAnswered, List.countP_append, List.countP_append, h, hw]

/-- An `EMIT` moves a word from the queue to the stream. -/
theorem EndsAnswered.emit (h : EndsAnswered accepted sent (w :: queued)) :
    EndsAnswered accepted (sent ++ [w]) queued := by
  rwa [EndsAnswered, List.append_cons] at h

end EndsAnswered

/-- Accepting a word with the queue empty queues one DONE for an END and none for a data word (R95, R96). -/
theorem Encoder.accept_countP (w : Token) {u : Encoder} (hq : u.oq = []) :
    ((u.accept w).oq.map EOToken.word).countP tokKind = [w].countP tokKind := by
  cases hw : tokKind w with
  | true =>
    rw [Encoder.accept_end hw]
    cases hh : u.have_ with
    | true => simp [Encoder.finish_held hh, encSingle, hq, hw]
    | false => simp [Encoder.finish_empty hh, hq, hw]
  | false =>
    rw [Encoder.accept_data hw]
    cases hh : u.have_ with
    | true => simp [Encoder.push_second _ hh, encPair, hq, hw]
    | false => simp [Encoder.push_first _ hh, hq, hw]

/-- `DPUSH` with the queue empty queues no DONE (R117). -/
theorem Decoder.PushCase.countP_oq {ch : Byte} {u u' : Decoder} (h : Decoder.PushCase ch u u') (hq : u.oq = []) :
    (u'.oq.map DOToken.word).countP tokKind = 0 := by
  cases h <;> simp [hq]

/-- `DEND` with the queue empty queues one DONE, of either status (R118). -/
theorem Decoder.FinishCase.countP_oq {u u' : Decoder} (h : Decoder.FinishCase u u') (hq : u.oq = []) :
    (u'.oq.map DOToken.word).countP tokKind = 1 := by
  cases h <;> simp [hq]

/-- Accepting a word with the queue empty queues one DONE for an END and none for a data word. -/
theorem Decoder.accept_countP (w : Token) {u : Decoder} (hq : u.oq = []) :
    ((u.accept w).oq.map DOToken.word).countP tokKind = [w].countP tokKind := by
  cases hw : tokKind w with
  | true =>
    rw [Decoder.accept_end hw, u.finish_cases.countP_oq hq]
    simp [hw]
  | false =>
    rw [Decoder.accept_data hw, (u.push_cases _).countP_oq hq]
    simp [hw]

section Step
variable {s s' : State} (h : step s = .next s')
include h

/-- `RESET` empties both counts, an `ACCEPT` finds the queue empty, and no other turn but the encoder's `EMIT` touches
the encoder or its streams. -/
theorem step_encoder_endsAnswered (hs : EndsAnswered s.trace.ei s.trace.eo (s.e.oq.map EOToken.word)) :
    EndsAnswered s'.trace.ei s'.trace.eo (s'.e.oq.map EOToken.word) := by
  cases step_cases h with
  | noTurn | releaseReset | notEnabled | decAccept | decEmit => exact hs
  | assertReset => rfl
  | encAccept _ w _ _ _ _ hq =>
    rw [hq] at hs
    exact hs.accept (Encoder.accept_countP w hq)
  | encEmit _ _ _ _ _ hq =>
    rw [hq] at hs
    exact hs.emit

/-- As for the encoder, by the decoder's own `ACCEPT` and `EMIT`. -/
theorem step_decoder_endsAnswered (hs : EndsAnswered s.trace.di s.trace.dO (s.d.oq.map DOToken.word)) :
    EndsAnswered s'.trace.di s'.trace.dO (s'.d.oq.map DOToken.word) := by
  cases step_cases h with
  | noTurn | releaseReset | notEnabled | encAccept | encEmit => exact hs
  | assertReset => rfl
  | decAccept _ w _ _ _ _ hq =>
    rw [hq] at hs
    exact hs.accept (Decoder.accept_countP w hq)
  | decEmit _ _ _ _ _ hq =>
    rw [hq] at hs
    exact hs.emit

end Step

/-- Settles O36: the count of each unit is kept by every step. -/
theorem everyEndGetsExactlyOneDone : Obligations.EveryEndGetsExactlyOneDone := fun _ _ h =>
  ⟨step_encoder_endsAnswered h, step_decoder_endsAnswered h⟩

end Sys2Proof.Machine
end

section
/-! PROOF. What an observer reads of messages that fail by a foreign character or by their length, the alphabet of
the encoder's texts, the empty messages, and the two ways of wiring the units together (43_message_properties.md R133 to
R136, R140). -/

namespace Sys2Proof.Machine

/-- The codes of the symbols are 7-bit ASCII (R80). -/
theorem code_symbolOf_lt : ∀ i : Index, (symbolOf i).code.toNat < 0x80 := by
  decide

/-- Settles O42: a character of the text is the code of a `Symbol`, which stands in `SYMROM`. -/
theorem encodedTextIsFromTheAlphabet : Obligations.EncodedTextIsFromTheAlphabet := by
  intro bytes ch hch
  obtain ⟨y, -, rfl⟩ := List.mem_map.1 hch
  obtain ⟨i, hi⟩ := (isSymbolCode_iff y.code).1 y.isCode
  exact ⟨⟨i, hi⟩, hi ▸ code_symbolOf_lt i⟩

section Answers
variable {text : List Byte}

/-- The hardware answers an accepted text with its bytes and OK (R122). -/
theorem decodeAnswer_of_decodeText_some {bytes : List Byte} (h : decodeText text = some bytes) :
    decodeAnswer text = (bytes, true) := by
  rw [streamOrderDecodesLikeTheDocument text] at h
  simpa [Prod.ext_iff, and_comm] using h

/-- The hardware answers a rejected text with ERR (R122). -/
theorem decodeAnswer_of_decodeText_none (h : decodeText text = none) : (decodeAnswer text).2 = false := by
  rw [streamOrderDecodesLikeTheDocument text] at h
  simpa using h

/-- The last word that answers a rejected text is that of `DDONE ERR` (R64). -/
theorem getLast?_decoderAnswer (h : decodeText text = none) : (decoderAnswer text).getLast? = some 0x101#9 := by
  rw [decoderAnswer_eq_segment, decodeAnswer_of_decodeText_none h, List.getLast?_concat]
  rfl

/-- A scan that has not failed has sent two bytes for each complete triple (R135). -/
theorem length_decodeScan (h : (decodeScan text).2 ≠ none) : (decodeScan text).1.length = 2 * (text.length / 3) := by
  induction text using decodeScan.induct with
  | case6 a b ch rest c d e hch hb ha two ht ih =>
    simp only [decodeScan, ha, hb, hch, ht, List.length_append, List.length_cons, length_of_decTriple ht] at h ⊢
    rw [ih h]
    omega
  | case1 | case2 | case4 => simp [decodeScan, *]
  | case3 | case5 | case7 | case8 => simp [decodeScan, *] at h

end Answers

/-- The lookup fails on a code that is no symbol's (R83). -/
theorem indexOf_eq_none {ch : Byte} (h : ∀ i : Index, (symbolOf i).code ≠ ch) : indexOf ch = none :=
  Option.eq_none_iff_forall_ne_some.2 fun i hi => h i (code_symbolOf_of_indexOf hi)

/-- Settles O56. -/
theorem foreignCharactersFailTheMessage : Obligations.ForeignCharactersFailTheMessage := by
  intro before after ch hch
  have hfail : decodeText (before ++ ch :: after) = none :=
    decodeText_foreign ⟨ch, by simp, indexOf_eq_none hch⟩
  exact ⟨getLast?_decoderAnswer hfail, hfail⟩

/-- Settles O57: the length is one of the four causes of failure, and a failing `DEND` adds nothing to the bytes of the
scan. -/
theorem lengthOneModThreeFailsTheMessage : Obligations.LengthOneModThreeFailsTheMessage := by
  intro text _ hlen
  have hfail : decodeText text = none := (decodeFailsExactlyByTheFourCauses text).2 (.inr (.inl hlen))
  refine ⟨getLast?_decoderAnswer hfail, hfail, fun hscan => ?_⟩
  have hbytes : (decodeAnswer text).1 = (decodeScan text).1 := closeScan_failed (decodeAnswer_of_decodeText_none hfail)
  rw [hbytes, length_decodeScan hscan]

/-- Settles O46: the rows of two ports that carry the same data share their word, so the first clause is by definition;
the second is that decoding undoes encoding. -/
theorem loopBackGivesTheMessageBack : Obligations.LoopBackGivesTheMessageBack := by
  refine ⟨fun bytes => ⟨rfl, ?_⟩, fun b => congrArg _ decodeEI_data, congrArg _ decodeEI_end,
    congrArg _ decodeEI_end⟩
  rw [decoderAnswer_eq_segment, decodeAnswer_of_decodeText_some (decodeUndoesEncode bytes)]
  rfl

/-- Settles O55: two turns of each unit, evaluated. -/
theorem emptyMessagesAnswerEmpty : Obligations.EmptyMessagesAnswerEmpty :=
  ⟨⟨_, rfl, rfl, rfl⟩, ⟨_, rfl, rfl, rfl⟩⟩

end Sys2Proof.Machine
end

section
/-! PROOF. Neither unit's side of a run depends on the other unit (43_message_properties.md R139, 10_state.md R54 (c),
00_scope.md R11). The side of a unit is a machine of its own: every turn acts on it by a function of that side and the
turn alone, and the other unit's turns leave it as it is. So the side at the end of a run is a fold over the unit's own
turns. -/

namespace Sys2Proof.Machine

/-! ## A part of the state that is a machine of its own -/

section Views
variable {σ : Type} (view : State → σ) (act : σ → Turn → σ)

/-- Turns that do not act on the part can be taken out of the schedule. -/
theorem foldl_filter_own {own : Turn → Bool} (hforeign : ∀ v x, own x = false → act v x = v) (turns : List Turn)
    (v : σ) : (turns.filter own).foldl act v = turns.foldl act v := by
  have hact : (fun v x => if own x then act v x else v) = act := by
    funext v x
    cases hx : own x with
    | false => exact (hforeign v x hx).symm
    | true => rfl
  rw [List.foldl_filter, hact]

variable (hstep : ∀ {s s' x turns}, s.sched = x :: turns → step s = .next s' → view s' = act (view s) x)
include hstep

/-- What a run does to a part of the state on which each turn acts by `act`: the acts of its turns in order. -/
theorem run_view {s s' : State} (h : Host.Core.run core s.sched.length s = .next s') :
    view s' = s.sched.foldl act (view s) := by
  induction hs : s.sched generalizing s with
  | nil =>
    rw [hs] at h
    obtain rfl : s = s' := Host.Outcome.next.inj h
    rfl
  | cons x turns ih =>
    obtain ⟨s1, hstep1, hs1, h1⟩ := run_sched_cons hs h
    rw [ih h1 hs1, hstep hs hstep1, List.foldl_cons]

/-- Runs that begin with the same part and agree on the turns that act on it end with the same part. -/
theorem run_view_congr {own : Turn → Bool} (hforeign : ∀ v x, own x = false → act v x = v) {s t s' t' : State}
    (hst : view s = view t) (hsched : s.sched.filter own = t.sched.filter own)
    (hs : Host.Core.run core s.sched.length s = .next s') (ht : Host.Core.run core t.sched.length t = .next t') :
    view s' = view t' := by
  rw [run_view view act hstep hs, run_view view act hstep ht, hst, ← foldl_filter_own act hforeign, hsched,
    foldl_filter_own act hforeign]

end Views

/-! ## The sides of the two units -/

/-- The side of one unit: its state, the reset pin, and the words offered, accepted and sent on its ports (R139). -/
structure Side (υ : Type) where
  unit : υ
  rst : Bool
  offered : List Token
  accepted : List Token
  sent : List Token

/-- The encoder's side of a state. -/
def State.encoderSide (s : State) : Side Encoder :=
  { unit := s.e, rst := s.rst, offered := s.ei, accepted := s.trace.ei, sent := s.trace.eo }

/-- The decoder's side of a state. -/
def State.decoderSide (s : State) : Side Decoder :=
  { unit := s.d, rst := s.rst, offered := s.di, accepted := s.trace.di, sent := s.trace.dO }

theorem State.sameEncoderSide_iff (s t : State) : s.sameEncoderSide t ↔ s.encoderSide = t.encoderSide := by
  simp [State.sameEncoderSide, State.encoderSide]

theorem State.sameDecoderSide_iff (s t : State) : s.sameDecoderSide t ↔ s.decoderSide = t.decoderSide := by
  simp [State.sameDecoderSide, State.decoderSide]

section SideTurns
variable {υ τ : Type} (v : Side υ)

/-- An `ACCEPT` turn of a unit: `ready` says whether its queue is empty, `accept` what a word does to it. -/
def Side.takeWord (ready : Bool) (accept : Token → υ → υ) : Side υ :=
  match v.offered with
  | [] => v
  | w :: rest =>
    if !v.rst && ready then { v with unit := accept w v.unit, offered := rest, accepted := v.accepted ++ [w] } else v

/-- An `EMIT` turn of a unit with the given queue: `left` is the unit with the rest of it. -/
def Side.giveWord (queue : List τ) (word : τ → Token) (left : List τ → υ) : Side υ :=
  match queue with
  | [] => v
  | h :: rest => if v.rst then v else { v with unit := left rest, sent := v.sent ++ [word h] }

/-- `RESET`, with the unit's idle state. -/
def Side.reset (idle : υ) : Side υ :=
  { v with unit := idle, rst := true, accepted := [], sent := [] }

end SideTurns

/-- What a turn does to the encoder's side. -/
def Side.encoderAct (v : Side Encoder) : Turn → Side Encoder
  | .encAccept => v.takeWord v.unit.oq.isEmpty Encoder.accept
  | .encEmit => v.giveWord v.unit.oq EOToken.word fun q => { v.unit with oq := q }
  | .decAccept | .decEmit => v
  | .assertReset => v.reset Encoder.idle
  | .releaseReset => { v with rst := false }

/-- What a turn does to the decoder's side. -/
def Side.decoderAct (v : Side Decoder) : Turn → Side Decoder
  | .decAccept => v.takeWord v.unit.oq.isEmpty Decoder.accept
  | .decEmit => v.giveWord v.unit.oq DOToken.word fun q => { v.unit with oq := q }
  | .encAccept | .encEmit => v
  | .assertReset => v.reset Decoder.idle
  | .releaseReset => { v with rst := false }

section NotEnabled
variable {s : State} {x : Turn} {turns : List Turn} (hf : fetch x { s with sched := turns } = none)
  (ha : x ≠ .assertReset) (hb : x ≠ .releaseReset)
include hf ha hb

/-- A turn whose step is not enabled leaves the encoder's side. -/
theorem encoderAct_notEnabled : s.encoderSide.encoderAct x = s.encoderSide := by
  cases x with
  | encAccept =>
    cases hi : s.ei with
    | nil => simp [Side.encoderAct, Side.takeWord, State.encoderSide, hi]
    | cons w rest =>
      have hbusy : s.rst = false → s.e.oq ≠ [] := by simpa [fetch, hi] using hf
      simpa [Side.encoderAct, Side.takeWord, State.encoderSide, hi] using fun hr hq => absurd hq (hbusy hr)
  | encEmit =>
    cases hq : s.e.oq with
    | nil => simp [Side.encoderAct, Side.giveWord, State.encoderSide, hq]
    | cons h rest =>
      have hr : s.rst = true := by simpa [fetch, hq] using hf
      simp [Side.encoderAct, Side.giveWord, State.encoderSide, hq, hr]
  | decAccept | decEmit => rfl
  | assertReset => exact absurd rfl ha
  | releaseReset => exact absurd rfl hb

/-- A turn whose step is not enabled leaves the decoder's side. -/
theorem decoderAct_notEnabled : s.decoderSide.decoderAct x = s.decoderSide := by
  cases x with
  | decAccept =>
    cases hi : s.di with
    | nil => simp [Side.decoderAct, Side.takeWord, State.decoderSide, hi]
    | cons w rest =>
      have hbusy : s.rst = false → s.d.oq ≠ [] := by simpa [fetch, hi] using hf
      simpa [Side.decoderAct, Side.takeWord, State.decoderSide, hi] using fun hr hq => absurd hq (hbusy hr)
  | decEmit =>
    cases hq : s.d.oq with
    | nil => simp [Side.decoderAct, Side.giveWord, State.decoderSide, hq]
    | cons h rest =>
      have hr : s.rst = true := by simpa [fetch, hq] using hf
      simp [Side.decoderAct, Side.giveWord, State.decoderSide, hq, hr]
  | encAccept | encEmit => rfl
  | assertReset => exact absurd rfl ha
  | releaseReset => exact absurd rfl hb

end NotEnabled

section Steps
variable {s s' : State} {x : Turn} {turns : List Turn} (hs : s.sched = x :: turns) (h : step s = .next s')
include hs h

/-- A step acts on the encoder's side by its turn and that side alone. -/
theorem step_encoderSide : s'.encoderSide = s.encoderSide.encoderAct x := by
  cases step_cases h with
  | noTurn hx => cases hs.symm.trans hx
  | assertReset _ hx | releaseReset _ hx | decAccept _ _ _ hx | decEmit _ _ _ hx =>
    cases hs.symm.trans hx
    rfl
  | notEnabled _ _ hx ha hb hf =>
    cases hs.symm.trans hx
    exact (encoderAct_notEnabled hf ha hb).symm
  | encAccept _ _ _ hx hi hr hq =>
    cases hs.symm.trans hx
    simp [State.encoderSide, Side.encoderAct, Side.takeWord, hi, hr, hq]
  | encEmit _ _ _ hx hr hq =>
    cases hs.symm.trans hx
    simp [State.encoderSide, Side.encoderAct, Side.giveWord, hr, hq]

/-- A step acts on the decoder's side by its turn and that side alone. -/
theorem step_decoderSide : s'.decoderSide = s.decoderSide.decoderAct x := by
  cases step_cases h with
  | noTurn hx => cases hs.symm.trans hx
  | assertReset _ hx | releaseReset _ hx | encAccept _ _ _ hx | encEmit _ _ _ hx =>
    cases hs.symm.trans hx
    rfl
  | notEnabled _ _ hx ha hb hf =>
    cases hs.symm.trans hx
    exact (decoderAct_notEnabled hf ha hb).symm
  | decAccept _ _ _ hx hi hr hq =>
    cases hs.symm.trans hx
    simp [State.decoderSide, Side.decoderAct, Side.takeWord, hi, hr, hq]
  | decEmit _ _ _ hx hr hq =>
    cases hs.symm.trans hx
    simp [State.decoderSide, Side.decoderAct, Side.giveWord, hr, hq]

end Steps

/-- Settles O37: both runs fold the acts of the encoder's own turns over the same side. -/
theorem encoderIsIndependentOfTheDecoder : Obligations.EncoderIsIndependentOfTheDecoder := by
  intro s t s' t' hst hsched hs ht
  rw [State.sameEncoderSide_iff] at hst ⊢
  refine run_view_congr State.encoderSide Side.encoderAct step_encoderSide (fun v x hx => ?_) hst hsched hs ht
  obtain rfl | rfl : x = .decAccept ∨ x = .decEmit := by simpa [imp_iff_not_or] using hx
  · rfl
  · rfl

/-- Settles O38: both runs fold the acts of the decoder's own turns over the same side. -/
theorem decoderIsIndependentOfTheEncoder : Obligations.DecoderIsIndependentOfTheEncoder := by
  intro s t s' t' hst hsched hs ht
  rw [State.sameDecoderSide_iff] at hst ⊢
  refine run_view_congr State.decoderSide Side.decoderAct step_decoderSide (fun v x hx => ?_) hst hsched hs ht
  obtain rfl | rfl : x = .encAccept ∨ x = .encEmit := by simpa [imp_iff_not_or] using hx
  · rfl
  · rfl

end Sys2Proof.Machine
end

section
/-! PROOF. Every message is finished by the turns its schedule gives it (70_reset_and_hazards.md R177; 41_encoder.md
R101, 42_decoder.md R122). One unit's turns change only that unit's side, so every state on the way is written as the
first state with a unit, the words accepted and sent, and what is left (`State.encProgress`, `State.decProgress`). -/

namespace Sys2Proof.Machine

/-! ## The encoder -/

/-- The state after turns of the encoder alone that accept the words `accepted` and hand out the words `sent`: the
encoder is `u`, and `rest` and `turns` are left. -/
def State.encProgress (s : State) (u : Encoder) (accepted sent rest : List Token) (turns : List Turn) : State :=
  { s with
    e := u
    ei := rest
    sched := turns
    trace := { s.trace with ei := s.trace.ei ++ accepted, eo := s.trace.eo ++ sent } }

/-- Before any of these turns. -/
theorem State.encProgress_self (s : State) : s.encProgress s.e [] [] s.ei s.sched = s := by
  simp [State.encProgress]

/-- The encoder that holds the first byte of a pair, with nothing queued (R22). -/
def Encoder.holding (b : Byte) : Encoder :=
  { hold := b, have_ := true, oq := [] }

/-- The idle encoder holds the first byte of a message and queues nothing (R95). -/
theorem Encoder.idle_accept_epush (b : Byte) : Encoder.idle.accept (encode (.epush b)) = .holding b := by
  simp [Encoder.accept, encode, Encoder.push, Encoder.holding]

/-- The second byte of a pair queues its three symbols (R95). -/
theorem Encoder.holding_accept_epush (b0 b1 : Byte) :
    (Encoder.holding b0).accept (encode (.epush b1)) =
      { Encoder.idle with oq := (encPair b0 b1).map EOToken.esym } := by
  simp [Encoder.accept, encode, Encoder.push_second, Encoder.holding, Encoder.idle]

/-- An END after an odd byte queues its two symbols and `EDONE` (R96). -/
theorem Encoder.holding_accept_eend (b : Byte) :
    (Encoder.holding b).accept (encode .eend) =
      { Encoder.idle with oq := (encSingle b).map EOToken.esym ++ [.edone] } := by
  simp [Encoder.accept, encode, Encoder.finish_held, Encoder.holding, Encoder.idle]

/-- The answer to a message begins with the symbols of its first pair (R100). -/
theorem encoderAnswer_cons2 (b0 b1 : Byte) (m : List Byte) :
    encoderAnswer (b0 :: b1 :: m) = symbolWords (encPair b0 b1) ++ encoderAnswer m := by
  simp [encoderAnswer_eq, encodeSymbols]

section EncoderRounds
variable {s : State} (hr : s.rst = false)
include hr

/-- One more `ACCEPT` turn of the encoder, which finds its queue empty. -/
theorem step_encProgress {u : Encoder} (hq : u.oq = []) (accepted sent : List Token) (w : Token) (rest : List Token)
    (turns : List Turn) :
    step (s.encProgress u accepted sent (w :: rest) (.encAccept :: turns)) =
      .next (s.encProgress (u.accept w) (accepted ++ [w]) sent rest turns) := by
  refine (step_encAccept (s := s.encProgress u accepted sent (w :: rest) _) rfl rfl hr hq).trans ?_
  simp [State.encProgress]

/-- `EMIT` turns enough to drain the encoder's queue. -/
theorem run_encProgress_drain (n : Nat) {u : Encoder} (hn : u.oq.length ≤ n) (accepted sent rest : List Token)
    (turns : List Turn) :
    Host.Core.run core n (s.encProgress u accepted sent rest (List.replicate n .encEmit ++ turns)) =
      .next (s.encProgress { u with oq := [] } accepted (sent ++ u.oq.map EOToken.word) rest turns) := by
  refine (run_encDrain n (s.encProgress u accepted sent rest _) turns hr hn rfl).trans ?_
  simp [State.encProgress]

/-- From the idle encoder a byte and the word after it are finished by two `ACCEPT` turns and three `EMIT` turns, when
the word queues at most three tokens and leaves nothing held (R95, R96). -/
theorem run_encHeld {b : Byte} {w : Token} {q : List EOToken}
    (hw : (Encoder.holding b).accept w = { Encoder.idle with oq := q }) (hlen : q.length ≤ 3)
    (accepted sent rest : List Token) (turns : List Turn) :
    Host.Core.run core 5 (s.encProgress Encoder.idle accepted sent (encode (.epush b) :: w :: rest)
        ([.encAccept, .encAccept, .encEmit, .encEmit, .encEmit] ++ turns)) =
      .next (s.encProgress Encoder.idle (accepted ++ [encode (.epush b), w]) (sent ++ q.map EOToken.word) rest
        turns) := by
  have hfirst := step_encProgress hr Encoder.idle_oq accepted sent (encode (.epush b)) (w :: rest)
    (.encAccept :: (List.replicate 3 .encEmit ++ turns))
  have hsecond := step_encProgress hr (u := .holding b) rfl (accepted ++ [encode (.epush b)]) sent w rest
    (List.replicate 3 .encEmit ++ turns)
  rw [Encoder.idle_accept_epush] at hfirst
  rw [hw, List.append_assoc] at hsecond
  exact (run_succ 4 hfirst).trans ((run_succ 3 hsecond).trans (run_encProgress_drain hr 3 hlen _ _ _ _))

/-- From the idle encoder a whole message is accepted and answered, and the encoder is idle again. -/
theorem run_encMessage (bytes : List Byte) (accepted sent rest : List Token) (turns : List Turn) :
    Host.Core.run core (encoderTurns bytes).length (s.encProgress Encoder.idle accepted sent
        (encodeTokens bytes ++ rest) (encoderTurns bytes ++ turns)) =
      .next (s.encProgress Encoder.idle (accepted ++ encodeTokens bytes) (sent ++ encoderAnswer bytes) rest turns) := by
  induction bytes using encoderTurns.induct generalizing accepted sent with
  | case1 =>
    exact (run_succ 1 (step_encProgress hr rfl accepted sent _ rest _)).trans
      (run_encProgress_drain hr 1 le_rfl _ _ _ _)
  | case2 b => exact run_encHeld hr (Encoder.holding_accept_eend b) le_rfl accepted sent rest turns
  | case3 b0 b1 m ih =>
    have hpair := run_encHeld hr (Encoder.holding_accept_epush b0 b1) le_rfl accepted sent (encodeTokens m ++ rest)
      (encoderTurns m ++ turns)
    have hmsg := ih (accepted ++ [encode (.epush b0), encode (.epush b1)]) (sent ++ symbolWords (encPair b0 b1))
    have hlen : (encoderTurns (b0 :: b1 :: m)).length = 5 + (encoderTurns m).length := List.length_append
    rw [List.append_assoc, List.append_assoc, ← encoderAnswer_cons2] at hmsg
    rw [hlen]
    exact (run_add 5 _ hpair).trans hmsg

end EncoderRounds

/-- A message has one `ACCEPT` turn for each byte and one for its END (R177). -/
theorem countP_encAccept_encoderTurns (bytes : List Byte) :
    (encoderTurns bytes).countP (fun t => t = .encAccept) = bytes.length + 1 := by
  induction bytes using encoderTurns.induct with
  | case1 | case2 => rfl
  | case3 b0 b1 m ih => simp [encoderTurns, ih]

/-- A message has one `EMIT` turn for each token of its answer (R177). -/
theorem countP_encEmit_encoderTurns (bytes : List Byte) :
    (encoderTurns bytes).countP (fun t => t = .encEmit) = (encoderAnswer bytes).length := by
  induction bytes using encoderTurns.induct with
  | case1 | case2 => rfl
  | case3 b0 b1 m ih => simp [encoderTurns, encoderAnswer_cons2, ih, symbolWords, encPair]

/-- Settles O53, by induction over the message two bytes at a time: a pair and its five turns bring the encoder back to
idle (`run_encHeld`), and so does the END. -/
theorem encoderFinishesEveryMessage : Obligations.EncoderFinishesEveryMessage := by
  intro bytes s rest turns hr he hi hs
  refine ⟨countP_encAccept_encoderTurns bytes, countP_encEmit_encoderTurns bytes, ?_⟩
  have hrun := run_encMessage hr bytes [] [] rest turns
  rw [← he, ← hi, ← hs, State.encProgress_self] at hrun
  exact hrun

/-! ## The decoder -/

/-- The state after turns of the decoder alone that accept the words `accepted` and hand out the words `sent`: the
decoder is `u`, and `rest` and `turns` are left. -/
def State.decProgress (s : State) (u : Decoder) (accepted sent rest : List Token) (turns : List Turn) : State :=
  { s with
    d := u
    di := rest
    sched := turns
    trace := { s.trace with di := s.trace.di ++ accepted, dO := s.trace.dO ++ sent } }

/-- Before any of these turns. -/
theorem State.decProgress_self (s : State) : s.decProgress s.d [] [] s.di s.sched = s := by
  simp [State.decProgress]

/-- `DPUSH` queues at most two tokens (R7 `DOQ_DEPTH`). -/
theorem Decoder.PushCase.oq_length {ch : Byte} {u u' : Decoder} (h : Decoder.PushCase ch u u') (hq : u.oq = []) :
    u'.oq.length ≤ 2 := by
  cases h <;> simp [hq]

/-- `DEND` queues at most two tokens (R7 `DOQ_DEPTH`). -/
theorem Decoder.FinishCase.oq_length {u u' : Decoder} (h : Decoder.FinishCase u u') (hq : u.oq = []) :
    u'.oq.length ≤ 2 := by
  cases h <;> simp [hq]

theorem Decoder.accept_oq_length (w : Token) {u : Decoder} (hq : u.oq = []) : (u.accept w).oq.length ≤ 2 := by
  cases hw : tokKind w with
  | true =>
    rw [Decoder.accept_end hw]
    exact u.finish_cases.oq_length hq
  | false =>
    rw [Decoder.accept_data hw]
    exact (u.push_cases _).oq_length hq

theorem Decoder.accept_dpush (ch : Byte) (u : Decoder) : u.accept (encode (.dpush ch)) = u.push ch := by
  simp [Decoder.accept, encode]

theorem Decoder.accept_dend (u : Decoder) : u.accept (encode .dend) = u.finish := rfl

/-- The turns of one word: its `ACCEPT` and two `EMIT` turns (R177). -/
def decRound : List Turn :=
  [.decAccept, .decEmit, .decEmit]

/-- A schedule of the decoder is one round for each character and one for the END. -/
theorem decoderTurns_eq (m : Nat) : decoderTurns m = (List.replicate m decRound).flatten ++ decRound := by
  rw [decoderTurns, List.replicate_succ', List.flatten_append, List.flatten_singleton]
  rfl

theorem length_decRounds (m : Nat) : (List.replicate m decRound).flatten.length = 3 * m := by
  simp [decRound, Nat.mul_comm]

section DecoderRounds
variable {s : State} (hr : s.rst = false)
include hr

/-- One more round of the decoder: the word is accepted, and the two `EMIT` turns hand out what it queues, those to
spare changing nothing. -/
theorem run_decRound {u : Decoder} (hq : u.oq = []) (accepted sent : List Token) (w : Token) (rest : List Token)
    (turns : List Turn) :
    Host.Core.run core 3 (s.decProgress u accepted sent (w :: rest) (decRound ++ turns)) =
      .next (s.decProgress { u.accept w with oq := [] } (accepted ++ [w])
        (sent ++ (u.accept w).oq.map DOToken.word) rest turns) := by
  have haccept : step (s.decProgress u accepted sent (w :: rest) (decRound ++ turns)) =
      .next (s.decProgress (u.accept w) (accepted ++ [w]) sent rest (List.replicate 2 .decEmit ++ turns)) := by
    refine (step_decAccept (s := s.decProgress u accepted sent (w :: rest) _) rfl rfl hr hq).trans ?_
    simp [State.decProgress]
  have hdrain := run_decDrain 2 (s.decProgress (u.accept w) (accepted ++ [w]) sent rest _) turns hr
    (Decoder.accept_oq_length w hq) rfl
  refine (run_succ 2 haccept).trans (hdrain.trans ?_)
  simp [State.decProgress]

/-- From the idle decoder the characters of a text are accepted: the bytes of its scan are sent, and the registers hold
its incomplete group or its failure (R122, R123). -/
theorem run_decText (text : List Byte) (rest : List Token) (turns : List Turn) :
    ∃ u : Decoder, u.Holds (decodeScan text).2 ∧ u.oq = [] ∧
      Host.Core.run core (3 * text.length) (s.decProgress Decoder.idle [] []
          (text.map (fun ch => encode (.dpush ch)) ++ rest) ((List.replicate text.length decRound).flatten ++ turns)) =
        .next (s.decProgress u (text.map fun ch => encode (.dpush ch)) (byteWords (decodeScan text).1) rest turns) := by
  induction text using List.reverseRecOn generalizing rest turns with
  | nil => exact ⟨Decoder.idle, ⟨rfl, rfl, rfl⟩, rfl, rfl⟩
  | append_singleton text ch ih =>
    obtain ⟨u, hu, hq, hrun⟩ := ih (encode (.dpush ch) :: rest) (decRound ++ turns)
    have hround := run_decRound hr hq (text.map fun ch => encode (.dpush ch))
      (byteWords (decodeScan text).1) (encode (.dpush ch)) rest turns
    obtain ⟨hholds, hoq⟩ := Decoder.push_holds ch hu hq
    rw [Decoder.accept_dpush, hoq, List.map_map, map_word_comp_dbyte, ← byteWords_append] at hround
    rw [decodeScan_append_singleton]
    refine ⟨{ u.push ch with oq := [] }, hholds, rfl, ?_⟩
    simpa [Nat.mul_add, List.replicate_succ'] using (run_add _ 3 hrun).trans hround

/-- From the idle decoder a whole message is accepted and answered, and the decoder is idle again. -/
theorem run_decMessage (text : List Byte) (rest : List Token) (turns : List Turn) :
    Host.Core.run core (decoderTurns text.length).length (s.decProgress Decoder.idle [] []
        (decodeTokens text ++ rest) (decoderTurns text.length ++ turns)) =
      .next (s.decProgress Decoder.idle (decodeTokens text) (decoderAnswer text) rest turns) := by
  obtain ⟨u, hu, hq, hrun⟩ := run_decText hr text (encode .dend :: rest) (decRound ++ turns)
  have hround := run_decRound hr hq (text.map fun ch => encode (.dpush ch))
    (byteWords (decodeScan text).1) (encode .dend) rest turns
  have hlen : (decoderTurns text.length).length = 3 * text.length + 3 := by
    rw [decoderTurns_eq, List.length_append, length_decRounds]
    rfl
  rw [Decoder.accept_dend, Decoder.finish_oq hu hq, List.map_append, List.map_map, map_word_comp_dbyte] at hround
  rw [hlen, decoderTurns_eq, decodeTokens, decoderAnswer_eq, List.append_assoc, List.append_assoc]
  exact (run_add _ 3 hrun).trans hround

end DecoderRounds

/-- Settles O54, by induction over the text from its end: each round follows the scan by one character
(`Decoder.push_holds`), and the round of the END sends what closes the scan and leaves the decoder idle. -/
theorem decoderFinishesEveryMessage : Obligations.DecoderFinishesEveryMessage := by
  intro text s rest turns hr hd hi hs
  have hrun := run_decMessage hr text rest turns
  rw [← hd, ← hi, ← hs, State.decProgress_self] at hrun
  exact hrun

end Sys2Proof.Machine
end

section
/-! PROOF. Reset (70_reset_and_hazards.md R170, R172, R173, R178), and the units at the end of a run (R34, R182). -/

namespace Sys2Proof.Machine

/-! ## The reset pin -/

/-- The output pins right after `RESET`, from any state (R170). -/
theorem State.resetStep_pins (s : State) :
    s.resetStep.pins = { eiReady := false, eoValid := false, eoData := none
                         diReady := false, doValid := false, doData := none, decErr := false } := rfl

/-- While the pin is asserted no turn has an enabled step (R170). -/
theorem fetch_of_reset {s : State} (hr : s.rst = true) (t : Turn) : fetch t s = none := by
  cases t with
  | encAccept => exact (fetch_encAccept s).resolve_left (by simp [hr])
  | decAccept => exact (fetch_decAccept s).resolve_left (by simp [hr])
  | encEmit => exact (fetch_encEmit s).resolve_left (by simp [hr])
  | decEmit => exact (fetch_decEmit s).resolve_left (by simp [hr])
  | assertReset | releaseReset => rfl

/-- Settles O14: `RESET` and the release are single record updates, and a held pin disables every turn of a unit. -/
theorem resetClearsBothUnitsAndHoldsThem : Obligations.ResetClearsBothUnitsAndHoldsThem := by
  intro s t rest hs
  refine ⟨?_, fun hr ht => ?_, ?_⟩
  · rintro rfl
    exact ⟨_, step_cons hs, rfl, rfl, rfl, rfl, rfl, rfl, rfl, rfl, rfl, rfl, rfl, State.resetStep_pins _⟩
  · obtain ⟨ha, hb⟩ : t ≠ .assertReset ∧ t ≠ .releaseReset := by
      obtain rfl | rfl | rfl | rfl := ht <;> decide
    rw [step_cons hs, runTurn_of_fetch_none ha hb (fetch_of_reset (s := { s with sched := rest }) hr t)]
  · rintro rfl
    exact step_cons hs

/-! ## The end of a run -/

/-- An encoder that holds nothing of an open message, with its queue empty, is idle (R12, R22). -/
theorem Encoder.Holds.eq_idle {u : Encoder} (hu : u.Holds []) (hq : u.oq = []) : u = Encoder.idle := by
  obtain ⟨hhave, hhold⟩ := (u.holds_even rfl).1 hu
  obtain ⟨hold, have_, oq⟩ := u
  obtain rfl : hold = 0 := hhold
  obtain rfl : have_ = false := hhave
  obtain rfl : oq = [] := hq
  rfl

/-- A decoder that holds the empty group, with its queue empty, is idle (R12, R23). -/
theorem Decoder.Holds.eq_idle {u : Decoder} (hu : u.Holds (some [])) (hq : u.oq = []) : u = Decoder.idle := by
  obtain ⟨herr, hcnt, hacc⟩ := hu
  obtain ⟨acc, cnt, err, oq⟩ := u
  obtain rfl : acc = 0 := hacc
  obtain rfl : cnt = 0 := Fin.ext hcnt
  obtain rfl : err = false := herr
  obtain rfl : oq = [] := hq
  rfl

/-- Settles O52: both units are on track (O47, O48, O49), and with no message open their registers hold what they hold
at the start of a message. -/
theorem unitsAreIdleWhenARunIsOver : Obligations.UnitsAreIdleWhenARunIsOver := by
  rintro ei di sched k s hrun ⟨-, -, hopenE, hopenD, hqE, hqD⟩
  have hE : s.EncoderTracks :=
    run_induction State.EncoderTracks everyStepKeepsTheEncoderOnTrack k (State.start_encoderTracks ei di sched) hrun
  have hD : s.DecoderTracks :=
    run_induction State.DecoderTracks everyStepKeepsTheDecoderOnTrack k (State.start_decoderTracks ei di sched) hrun
  obtain ⟨-, hholdE⟩ := s.encoderTracks_iff.1 hE
  obtain ⟨-, hholdD⟩ := s.decoderTracks_iff.1 hD
  rw [hopenE] at hholdE
  rw [hopenD] at hholdD
  exact ⟨hholdE.eq_idle hqE, Decoder.Holds.eq_idle hholdD hqD⟩

end Sys2Proof.Machine
end
